-- ==== Sys2Proof/Word.lean ====
section
/-! DEFINITION. The words of the block: bytes, host addresses and operation words (00_scope.md R8, R11). -/

namespace Sys2Proof

/-- `u8` of R11: an unsigned 8-bit value. -/
abbrev Byte := BitVec 8

/-- A host address: HOST_ADDR_BITS = 16, byte-addressed (R8, R32). -/
abbrev Addr := BitVec 16

/-- An operation word of format OPW16: OPWORD_BITS = 16 (R8, R46). -/
abbrev OpWord := BitVec 16

end Sys2Proof
end

