-- ==== Sys2Proof/Config.lean ====
section
/-! DEFINITION. The fixed parameters (00_scope.md R7, R8, R9), the transactions and answers at the
block's output port (30_encoding.md R55, 40_addressing.md R63, R64), and the free values: what the
spec leaves open and no proof may know. -/

namespace Sys2Proof

/-! ### Fixed parameters (R7, R8) -/

/-- WIDTH (R7). -/
abbrev Config.width : Nat := 128

/-- HEIGHT (R7). -/
abbrev Config.height : Nat := 48

/-- PAGE_COUNT (R7). -/
abbrev Config.pageCount : Nat := 6

/-- PAGE_ROWS (R7). -/
abbrev Config.pageRows : Nat := 8

/-- FB_SIZE = PAGE_COUNT × WIDTH (R7). -/
abbrev Config.fbSize : Nat := 768

/-- PIX_SIZE = WIDTH × HEIGHT (R8). -/
abbrev Config.pixSize : Nat := 6144

/-- THRESHOLD (R7): not configurable (R72). -/
abbrev Config.threshold : Nat := 128

/-- MAX_PAGE (R7). -/
abbrev Config.maxPage : Nat := 5

/-- MAX_COLUMN (R7). -/
abbrev Config.maxColumn : Nat := 127

/-- The spec's default of P_BRACKET_CLEAR_FILL (R9). The parameter itself is the field
`bracketClearFill` of State, so that every statement covers both values (log 5). -/
abbrev Config.bracketClearFillDefault : Bool := false

/-! ### The output port -/

/-- A transaction (R55, R63): one command byte sent with RS in command mode, or a byte sequence sent
with RS in data mode as one bus transaction. -/
inductive Transaction where
  | cmd (b : Byte)
  | data (bs : List Byte)
  deriving DecidableEq, Repr

/-- The sink's answer to one transaction, and its recorded outcome (R25, R64). -/
inductive SinkAnswer where
  | ok
  | fault
  deriving DecidableEq, Repr, Inhabited

/-! ### Free values -/

/-- The sink oracle (R28, R64): its answer to the n-th transaction it is offered, free and under no
law. It has no body, so nothing can be proved of a value of it (log 3). -/
opaque Config.sinkAnswer : Nat → Transaction → SinkAnswer

/-- The contents of PIX byte `a` drawn at the n-th reset (R29, R107): free (log 1). -/
opaque Config.pixDraw : Nat → Nat → Byte

/-- The contents of FB byte `i` drawn at the n-th reset (R29, R107): free (log 1). -/
opaque Config.fbDraw : Nat → Nat → Byte

end Sys2Proof
end

