-- ==== Sys2Proof/Machine/State.lean ====
section
/-! DEFINITION. The state of the block (10_state.md R14), the host actions (20_memory.md R31), the
reasons a step can stop, and the state after reset (R29). All plain data. -/

namespace Sys2Proof.Machine

/-- A host action (R31). Every access is one byte. -/
inductive HostAction where
  | memRead (addr : Addr)
  | memWrite (addr : Addr) (v : Byte)
  | reset
  deriving DecidableEq, Repr

/-- Reasons the machine stops with a fault: none. The spec's three error kinds are recorded in the
error registers and the block goes on (R96, R105), so no step faults (log 12; safe: a fault that
cannot be built hides nothing). -/
inductive Fault
  deriving DecidableEq, Repr

/-- Reasons a step has no meaning. -/
inductive Refusal where
  /-- Raised by an arm of exec whose instruction has no meaning yet; safe. No arm raises it now. -/
  | notModelled (mnemonic : String)
  /-- Raised by a host read at an unmapped address, 0x1B00..0x1BFF or 0x1C07..0xFFFF (R35); safe. -/
  | unmappedRead (addr : Addr)
  /-- Raised by a host write at an unmapped address, 0x1B00..0x1BFF or 0x1C07..0xFFFF (R35); safe. -/
  | unmappedWrite (addr : Addr)
  /-- Raised by a host write to FB, ERR_STATUS, ERR_INFO or STICKY (R34, R35); safe. -/
  | readOnlyWrite (addr : Addr)
  deriving DecidableEq, Repr

/-- The bytes of a store that have been written since reset, by rising index. An index that is not
listed has not been written and reads as its reset draw (R29, R30; log 1, log 2). -/
abbrev Memory := List Host.Cell

/-- The state. The first nine fields are the block's architectural state, exactly R14; the others are
the model's own: the inputs of R28 and R31 and the observation of R117 as plain data. -/
structure State where
  /-- PIX, by pixel address 0..6143 (R15). -/
  pix : Memory
  /-- FB, by index 0..767 (R16). -/
  fb : Memory
  /-- IMG_W (R19). -/
  imgW : Byte
  /-- IMG_H (R19). -/
  imgH : Byte
  /-- OP_ARG (R20). -/
  opArg : Byte
  /-- ERR_STATUS (R22). -/
  errStatus : Byte
  /-- ERR_INFO (R23). -/
  errInfo : Byte
  /-- STICKY (R24). -/
  sticky : Byte
  /-- OUT, oldest entry first (R25). -/
  out : List (Transaction × SinkAnswer)
  /-- Model's own: the parameter P_BRACKET_CLEAR_FILL (R9, R28; log 5). -/
  bracketClearFill : Bool
  /-- Model's own: the sink's next answers, oldest first; when there is none the answer is the free
  value `Config.sinkAnswer` (R28, R64; log 3). -/
  sinkAnswers : List SinkAnswer
  /-- Model's own: how many transactions the sink has answered (log 3). -/
  sinkDraws : Nat
  /-- Model's own: which reset the unwritten bytes of PIX and FB were drawn at (R29, R107; log 1). -/
  resetCount : Nat
  /-- Model's own: the host actions still to come, next one first (R13, R31; log 6). -/
  hostActions : List HostAction
  /-- Model's own: the values the host's reads returned, oldest first (R117(c); log 8). -/
  readLog : List Byte
  deriving DecidableEq, Repr

/-- The state after block reset (R29, R107). -/
def State.reset : State where
  pix := []
  fb := []
  imgW := 128#8
  imgH := 48#8
  opArg := 0x00#8
  errStatus := 0x00#8
  errInfo := 0x00#8
  sticky := 0x00#8
  out := []
  bracketClearFill := Config.bracketClearFillDefault
  sinkAnswers := []
  sinkDraws := 0
  resetCount := 0
  hostActions := []
  readLog := []

end Sys2Proof.Machine
end

