-- ==== Sys2Proof/Machine/Flags.lean ====
section
/-! DEFINITION. Error kinds and causes, and the bytes ERR_STATUS, ERR_INFO and STICKY take from them
(10_state.md R22 to R24, 60_exceptions.md R93 to R96). -/

namespace Sys2Proof.Machine

/-- The error kinds of the source; KIND 0, no error, is the absence of one (R93). -/
inductive ErrorKind where
  | configurationError
  | invalidDimensions
  | transportFault
  deriving DecidableEq, Repr

/-- The causes of an error (R94). Values 6 and 7 have no name here and are never produced. -/
inductive Cause where
  | reservedOp
  | pageRange
  | columnRange
  | dimMismatch
  | transport
  deriving DecidableEq, Repr

/-- KIND's number (R93). -/
def ErrorKind.code : ErrorKind → Byte
  | .configurationError => 1#8
  | .invalidDimensions => 2#8
  | .transportFault => 3#8

/-- CAUSE's number (R94). -/
def Cause.code : Cause → Byte
  | .reservedOp => 1#8
  | .pageRange => 2#8
  | .columnRange => 3#8
  | .dimMismatch => 4#8
  | .transport => 5#8

/-- ERR_STATUS of an error: `(KIND << 4) | CAUSE` (R94, R96). -/
def errStatusByte (kind : ErrorKind) (cause : Cause) : Byte := (kind.code <<< 4) ||| cause.code

/-- The STICKY flag of an error kind: `1 << (KIND - 1)` (R24, R96). -/
def stickyFlag (kind : ErrorKind) : Byte := 1#8 <<< (kind.code.toNat - 1)

/-- ERR_STATUS.CAUSE, bits 2:0 (R22). -/
def causeField (errStatus : Byte) : BitVec 3 := errStatus.extractLsb' 0 3

/-- ERR_STATUS.KIND, bits 5:4 (R22). -/
def kindField (errStatus : Byte) : BitVec 2 := errStatus.extractLsb' 4 2

/-- A condition as one bit. -/
def flagBit (c : Bool) : BitVec 1 := BitVec.ofBool c

/-- ERR_INFO of DIM_MISMATCH: `zext_8({IMG_H != 48, IMG_W != 128})` (R75, R94). -/
def dimInfo (imgW imgH : Byte) : Byte :=
  (flagBit (imgH != 48#8) ++ flagBit (imgW != 128#8)).setWidth 8

end Sys2Proof.Machine
end

