-- ==== Sys2Proof/Syntax.lean ====
section
/-! DEFINITION. The six operations of PFT-OPS version 1 (00_scope.md R2, 30_encoding.md R50), one
constructor per row of the opcode table. -/

namespace Sys2Proof

/-- An operation. ARG is an operand of SELECT_PAGE and SELECT_COLUMN alone and may hold any byte
(R47); the other four have no operand and ignore ARG (R48; log 13). -/
inductive Instr where
  /-- OPC 0x01, R66. -/
  | selectPage (arg : Byte)
  /-- OPC 0x02, R68. -/
  | selectColumn (arg : Byte)
  /-- OPC 0x03, R75. -/
  | encode
  /-- OPC 0x04, R86. -/
  | showImage
  /-- OPC 0x05, R88. -/
  | clear
  /-- OPC 0x06, R90. -/
  | fill
  deriving DecidableEq, Repr

end Sys2Proof
end

