-- ==== Sys2Proof/Decode.lean ====
section
/-! DEFINITION. The two encodings of 30_encoding.md: operation words (R46 to R51), decoded and
encoded, and the command bytes of output transactions (R56 to R59). -/

namespace Sys2Proof

/-! ### Operation words -/

/-- OPC: bits 7:0 of the operation word (R46). -/
def OpWord.opc (w : OpWord) : Byte := w.extractLsb' 0 8

/-- ARG: bits 15:8 of the operation word (R46). -/
def OpWord.arg (w : OpWord) : Byte := w.extractLsb' 8 8

/-- The word `{ARG, OPC}`: ARG in the upper bits (R11, R21, R46). -/
def OpWord.ofBytes (arg opc : Byte) : OpWord := arg ++ opc

/-- Why a decoder answers no operation. -/
inductive DecodeError where
  /-- OPC is 0x00 or in 0x07..0xFF (R51). -/
  | reservedOpcode (opc : Byte)
  /-- Fewer than the two bytes of an operation word (R52). -/
  | truncated
  deriving DecidableEq, Repr

/-- Decoding looks at OPC alone, all 8 bits of it, and is total (R49, R50, R51). -/
def decode (w : OpWord) : Except DecodeError Instr :=
  if w.opc = 0x01#8 then .ok (.selectPage w.arg)
  else if w.opc = 0x02#8 then .ok (.selectColumn w.arg)
  else if w.opc = 0x03#8 then .ok .encode
  else if w.opc = 0x04#8 then .ok .showImage
  else if w.opc = 0x05#8 then .ok .clear
  else if w.opc = 0x06#8 then .ok .fill
  else .error (.reservedOpcode w.opc)

/-- Decode a list of bytes, OPC first and ARG second (R46; the numbering of the opcode table), and
give the bytes left over. Every operation word is two bytes (R52). -/
def decodeBytes : List Byte → Except DecodeError (Instr × List Byte)
  | opc :: arg :: rest =>
    match decode (OpWord.ofBytes arg opc) with
    | .ok i => .ok (i, rest)
    | .error e => .error e
  | [_] => .error .truncated
  | [] => .error .truncated

/-- The OPC of an operation (R50). -/
def Instr.opcode : Instr → Byte
  | .selectPage _ => 0x01#8
  | .selectColumn _ => 0x02#8
  | .encode => 0x03#8
  | .showImage => 0x04#8
  | .clear => 0x05#8
  | .fill => 0x06#8

/-- The ARG an operation is encoded with: its operand, and 0x00 where ARG is ignored (R48; log 13). -/
def Instr.argByte : Instr → Byte
  | .selectPage arg => arg
  | .selectColumn arg => arg
  | .encode => 0x00#8
  | .showImage => 0x00#8
  | .clear => 0x00#8
  | .fill => 0x00#8

/-- The operation word of an operation (R46, R50). -/
def encode (i : Instr) : OpWord := OpWord.ofBytes i.argByte i.opcode

/-- A row of the opcode map read as match and mask over the 16-bit word (R49). -/
structure OpcodeRow where
  mnemonic : String
  matched : OpWord
  mask : OpWord
  deriving DecidableEq, Repr

/-- The opcode map (R49, R50). -/
def opcodeTable : List OpcodeRow :=
  [⟨"SELECT_PAGE", 0x0001#16, 0x00FF#16⟩,
   ⟨"SELECT_COLUMN", 0x0002#16, 0x00FF#16⟩,
   ⟨"ENCODE", 0x0003#16, 0x00FF#16⟩,
   ⟨"SHOW_IMAGE", 0x0004#16, 0x00FF#16⟩,
   ⟨"CLEAR", 0x0005#16, 0x00FF#16⟩,
   ⟨"FILL", 0x0006#16, 0x00FF#16⟩]

/-- A word selects a row when its masked bits are the row's match value (R49). -/
def OpcodeRow.selects (r : OpcodeRow) (w : OpWord) : Bool := w &&& r.mask == r.matched

/-- The mnemonic of an operation (R50). -/
def Instr.mnemonic : Instr → String
  | .selectPage _ => "SELECT_PAGE"
  | .selectColumn _ => "SELECT_COLUMN"
  | .encode => "ENCODE"
  | .showImage => "SHOW_IMAGE"
  | .clear => "CLEAR"
  | .fill => "FILL"

/-- The operation read from a table row's bits: bit 0 is the least significant bit of OPC, bits above
`nbits` are 0, and a word that does not fit in 16 bits is no operation (R46, R52; log 17). -/
def decodeTableWord (nbits w : Nat) : Option Instr :=
  if w % 2 ^ nbits < 65536 then
    match decodeBytes [BitVec.ofNat 8 (w % 2 ^ nbits), BitVec.ofNat 8 (w % 2 ^ nbits / 256)] with
    | .ok (i, _) => some i
    | .error _ => none
  else none

/-! ### Command bytes of output transactions -/

/-- Page-select command byte, `0xB0 | page` (R56). -/
def pageSelectByte (page : BitVec 16) : Byte := 0xB0#8 ||| page.setWidth 8

/-- Column-address low-nibble command byte, `0x00 | (col & 0xF)` (R57). -/
def columnLowByte (col : BitVec 16) : Byte := 0x00#8 ||| (col &&& 0xF#16).setWidth 8

/-- Column-address high-nibble command byte, `0x10 | ((col >> 4) & 0xF)` (R58). -/
def columnHighByte (col : BitVec 16) : Byte := 0x10#8 ||| ((col >>> 4) &&& 0xF#16).setWidth 8

/-- Display-off command byte (R59). -/
def displayOffByte : Byte := 0xAE#8

/-- Display-on command byte (R59). -/
def displayOnByte : Byte := 0xAF#8

/-- The commands the block can send (R56 to R59, R61). -/
inductive Command where
  | pageSelect (page : Nat)
  | columnLow (nibble : Nat)
  | columnHigh (nibble : Nat)
  | displayOff
  | displayOn
  deriving DecidableEq, Repr

/-- The command a reader of OUT recovers from a command byte, and none for a byte the block does not
emit (R60, R61). -/
def commandOfByte (b : Byte) : Option Command :=
  if b.toNat ≤ 0x0F then some (.columnLow b.toNat)
  else if 0x10 ≤ b.toNat ∧ b.toNat ≤ 0x17 then some (.columnHigh (b.toNat - 0x10))
  else if b = displayOffByte then some .displayOff
  else if b = displayOnByte then some .displayOn
  else if 0xB0 ≤ b.toNat ∧ b.toNat ≤ 0xB5 then some (.pageSelect (b.toNat - 0xB0))
  else none

end Sys2Proof
end

