-- ==== Sys2Proof/WellFormed.lean ====
section
/-! DEFINITION. Well-formed operations: those whose operand is legal (40_addressing.md R66, R68).
An ill-formed one is still encoded, decoded and issued; its meaning raises ConfigurationError. -/

namespace Sys2Proof

/-- Legal page values are 0..5 (R66). -/
def legalPage (arg : Byte) : Bool := decide (arg.toNat ≤ Config.maxPage)

/-- Legal column values are 0..127 (R68). -/
def legalColumn (arg : Byte) : Bool := decide (arg.toNat ≤ Config.maxColumn)

/-- The operand of the operation is in the range its rule allows (R66, R68); operations without an
operand are always well formed (R48). -/
def Instr.wellFormed : Instr → Bool
  | .selectPage arg => legalPage arg
  | .selectColumn arg => legalColumn arg
  | .encode => true
  | .showImage => true
  | .clear => true
  | .fill => true

end Sys2Proof
end

