-- ==== Sys2Proof/Machine/Operands.lean ====
section
/-! DEFINITION. Operand assembly (30_encoding.md R47) and the column-command function
(40_addressing.md R67). -/

namespace Sys2Proof.Machine

/-- `page = zext_16(ARG)` (R47). -/
def pageOperand (arg : Byte) : BitVec 16 := arg.setWidth 16

/-- `col = zext_16(ARG)` (R47). -/
def columnOperand (arg : Byte) : BitVec 16 := arg.setWidth 16

/-- The range check of SELECT_PAGE, `page > 5` (R66). -/
def pageOutOfRange (page : BitVec 16) : Bool := decide (Config.maxPage < page.toNat)

/-- The range check of SELECT_COLUMN, `col > 127` (R68). -/
def columnOutOfRange (col : BitVec 16) : Bool := decide (Config.maxColumn < col.toNat)

/-- ColumnCmds: the low-nibble and the high-nibble command byte of a column, in sending order (R67). -/
def columnCmds (col : BitVec 16) : Byte × Byte := (columnLowByte col, columnHighByte col)

end Sys2Proof.Machine
end

