-- ==== Sys2Proof/Machine/Ops.lean ====
section
/-! DEFINITION. The operations every meaning shares: the stores PIX and FB, recording an error and
recording success (60_exceptions.md R96, R97), the sink and Emit (40_addressing.md R64), the page
stream (42_display_update.md R82), and block reset (70_reset_and_hazards.md R107). -/

namespace Sys2Proof.Machine

/-! ### Stores -/

/-- The byte written at an index since reset, if one was. -/
def Memory.lookup : Memory → Nat → Option Byte
  | [], _ => none
  | (k, v) :: rest, a => if k = a then some v else Memory.lookup rest a

/-- Write one byte, keeping the indexes rising and each listed once. -/
def Memory.write : Memory → Nat → Byte → Memory
  | [], a, v => [(a, v)]
  | (k, w) :: rest, a, v =>
    if a < k then (a, v) :: (k, w) :: rest
    else if a = k then (a, v) :: rest
    else (k, w) :: Memory.write rest a v

/-- The canonical form of a store of `size` bytes: indexes strictly rising and below `size` (log 2). -/
abbrev Memory.wf (size : Nat) (m : Memory) : Prop :=
  m.Pairwise (fun x y => x.1 < y.1) ∧ ∀ x ∈ m, x.1 < size

/-- PIX[a]: the byte last written, else its reset draw (R15, R30). -/
def State.pixByte (s : State) (a : Nat) : Byte :=
  (Memory.lookup s.pix a).getD (Config.pixDraw s.resetCount a)

/-- FB[i]: the byte last written, else its reset draw (R16, R30). -/
def State.fbByte (s : State) (i : Nat) : Byte :=
  (Memory.lookup s.fb i).getD (Config.fbDraw s.resetCount i)

/-- `PIX[a] <- v` (R34). -/
def State.writePix (s : State) (a : Nat) (v : Byte) : State := { s with pix := Memory.write s.pix a v }

/-- All of FB written at once (R30, R75, R88, R90). -/
def State.setFb (s : State) (m : Memory) : State := { s with fb := m }

/-- A framebuffer all of whose 768 bytes are written, byte `i` holding `f i`. Every operation that
writes FB writes all of it (R30), and in no order that could be told apart (R77; log 19). -/
@[irreducible] def fullFramebuffer (f : Nat → Byte) : Memory := (List.range Config.fbSize).map fun i => (i, f i)

/-- FB[0..127], FB[128..255], …: the bytes of page `p` in column order (R16, R37, R62). -/
def State.fbPage (s : State) (p : Nat) : List Byte :=
  (List.range Config.width).map fun c => s.fbByte (p * Config.width + c)

/-! ### Recording the outcome of an operation -/

/-- Recording an error, the whole of "taking the exception" (R96, R105): the three error registers
change and everything done before stays. -/
def State.recordError (s : State) (kind : ErrorKind) (cause : Cause) (info : Byte) : State :=
  { s with
    errStatus := errStatusByte kind cause
    errInfo := info
    sticky := s.sticky ||| stickyFlag kind }

/-- Recording successful completion (R97). There is no other return (R105). -/
def State.recordSuccess (s : State) : State := { s with errStatus := 0x00#8, errInfo := 0x00#8 }

/-! ### The progress of one operation -/

/-- An operation on its way (R13, R64): running, with the transaction counter k, or ended at once by
an error that is already recorded (R96). -/
inductive Progress where
  | running (s : State) (k : Byte)
  | ended (s : State)
  deriving DecidableEq, Repr

/-- Do one more stage of the operation, unless an error has ended it: nothing after a raise runs
(R11, R96). -/
def Progress.andThen (g : Progress) (stage : State → Byte → Progress) : Progress :=
  match g with
  | .running s k => stage s k
  | .ended s => .ended s

/-- `raise <Kind>(cause, info)` (R11, R96). -/
def raiseError (kind : ErrorKind) (cause : Cause) (info : Byte) (s : State) : Progress :=
  .ended (s.recordError kind cause info)

/-- `if bad: raise <Kind>(cause, info)`. -/
def Progress.raiseIf (g : Progress) (bad : State → Bool) (kind : ErrorKind) (cause : Cause)
    (info : State → Byte) : Progress :=
  g.andThen fun s k => if bad s then raiseError kind cause (info s) s else .running s k

/-- A stage that only writes state. -/
def Progress.write (g : Progress) (f : State → State) : Progress :=
  g.andThen fun s k => .running (f s) k

/-- The state an operation leaves: it records success when its pseudocode ran to its end (R97). -/
def Progress.complete : Progress → State
  | .running s _ => s.recordSuccess
  | .ended s => s

/-- Run an operation's pseudocode to its end or its first error, as one step; k is 0 when it is
issued (R10, R64). Every operation answers a next state. -/
def runOperation (body : Progress → Progress) (s : State) : Host.Outcome State Fault Refusal :=
  .next (body (.running s 0#8)).complete

/-! ### Emit -/

/-- The sink's answer to the j-th transaction from here: the answer queued for it, else a free draw
(R28, R64; log 3, log 4). -/
def State.answerAt (s : State) (j : Nat) (tx : Transaction) : SinkAnswer :=
  match s.sinkAnswers[j]? with
  | some a => a
  | none => Config.sinkAnswer (s.sinkDraws + j) tx

/-- Append an answered transaction to OUT (R25, R64); the sink moves on to its next answer. -/
def State.appendOut (s : State) (tx : Transaction) (outcome : SinkAnswer) : State :=
  { s with
    out := s.out ++ [(tx, outcome)]
    sinkAnswers := s.sinkAnswers.tail
    sinkDraws := s.sinkDraws + 1 }

/-- `Emit(tx)` of R64, where the transaction may read the state it is emitted in. -/
def Progress.emitFrom (g : Progress) (tx : State → Transaction) : Progress :=
  g.andThen fun s k =>
    match s.answerAt 0 (tx s) with
    | .ok => .running (s.appendOut (tx s) .ok) (k + 1#8)
    | .fault => raiseError .transportFault .transport k (s.appendOut (tx s) .fault)

/-- `Emit(Cmd(b))`. -/
def Progress.emitCmd (g : Progress) (b : Byte) : Progress := g.emitFrom fun _ => .cmd b

/-- `Emit(Data(FB[p*128 .. p*128 + 127]))`, with FB as it stands at this Emit (R62, R82). -/
def Progress.emitPage (g : Progress) (p : Nat) : Progress := g.emitFrom fun s => .data (s.fbPage p)

/-- One page of PageStream: page select first, then column 0, then the page's bytes (R82). -/
def Progress.streamPage (g : Progress) (p : Nat) : Progress :=
  (((g.emitCmd (pageSelectByte (BitVec.ofNat 16 p))).emitCmd (columnCmds 0#16).1).emitCmd
    (columnCmds 0#16).2).emitPage p

/-- `PageStream()`: pages 0 to 5 in order (R82). -/
def Progress.pageStream (g : Progress) : Progress :=
  (List.range Config.pageCount).foldl Progress.streamPage g

/-! ### Block reset -/

/-- The host action Reset (R107): the block's state is that of R29 again, with fresh draws of PIX and
FB. The model's inputs and the host's observations stay (log 9). -/
def State.blockReset (s : State) : State :=
  { State.reset with
    bracketClearFill := s.bracketClearFill
    sinkAnswers := s.sinkAnswers
    sinkDraws := s.sinkDraws
    resetCount := s.resetCount + 1
    hostActions := s.hostActions
    readLog := s.readLog }

end Sys2Proof.Machine
end

