-- ==== Sys2Proof/Machine/Addressing.lean ====
section
/-! DEFINITION. The addressing operations SELECT_PAGE and SELECT_COLUMN (40_addressing.md). -/

namespace Sys2Proof.Machine

/-- SELECT_PAGE (R66): the range check comes before the formula and before any transaction. -/
def execSelectPage (arg : Byte) (s : State) : Host.Outcome State Fault Refusal :=
  runOperation (fun g =>
    (g.raiseIf (fun _ => pageOutOfRange (pageOperand arg)) .configurationError .pageRange
      (fun _ => arg)).emitCmd (pageSelectByte (pageOperand arg))) s

/-- SELECT_COLUMN (R68): range check, low-nibble command, high-nibble command. -/
def execSelectColumn (arg : Byte) (s : State) : Host.Outcome State Fault Refusal :=
  runOperation (fun g =>
    ((g.raiseIf (fun _ => columnOutOfRange (columnOperand arg)) .configurationError .columnRange
      (fun _ => arg)).emitCmd (columnCmds (columnOperand arg)).1).emitCmd
        (columnCmds (columnOperand arg)).2) s

end Sys2Proof.Machine
end

