-- ==== Sys2Proof/Machine/Codec.lean ====
section
/-! DEFINITION. The threshold, the vertical bit-pack and ENCODE (41_codec.md). -/

namespace Sys2Proof.Machine

/-- `Thr(v)`: 1, dark, when v < 128 (R71). -/
def thr (v : Byte) : BitVec 1 := if v.toNat < Config.threshold then 1#1 else 0#1

/-- The pixel address of row `r`, column `c` (R15). -/
def pixelAddress (r c : Nat) : Nat := r * Config.width + c

/-- `Pack(p, c)` (R74): bit j is the threshold of the pixel at row p*8 + j, column c. -/
def State.pack (s : State) (p c : Nat) : Byte :=
  (List.range Config.pageRows).foldl (fun b j =>
    b ||| ((thr (s.pixByte (pixelAddress (p * Config.pageRows + j) c))).setWidth 8 <<< j)) 0x00#8

/-- `IMG_W != 128 or IMG_H != 48` (R75). -/
def State.dimMismatch (s : State) : Bool := s.imgW != 128#8 || s.imgH != 48#8

/-- `EncodeCheck()` (R75, R101). -/
def Progress.encodeCheck (g : Progress) : Progress :=
  g.raiseIf State.dimMismatch .invalidDimensions .dimMismatch (fun s => dimInfo s.imgW s.imgH)

/-- `EncodeFB()` (R75): FB[p*128 + c] is Pack(p, c), for all 768 bytes. -/
def State.encodeFB (s : State) : State :=
  s.setFb (fullFramebuffer fun i => s.pack (i / Config.width) (i % Config.width))

/-- ENCODE (R75). -/
def execEncode (s : State) : Host.Outcome State Fault Refusal :=
  runOperation (fun g => g.encodeCheck.write State.encodeFB) s

end Sys2Proof.Machine
end

