-- ==== Sys2Proof/Machine/DisplayUpdate.lean ====
section
/-! DEFINITION. The whole-surface updates SHOW_IMAGE, CLEAR and FILL (42_display_update.md). -/

namespace Sys2Proof.Machine

/-- SHOW_IMAGE (R86): the dimension check comes before display-off, the encode after it. -/
def execShowImage (s : State) : Host.Outcome State Fault Refusal :=
  runOperation (fun g =>
    (((g.encodeCheck.emitCmd displayOffByte).write State.encodeFB).pageStream).emitCmd
      displayOnByte) s

/-- `if P_BRACKET_CLEAR_FILL: Emit(Cmd(b))` (R85). -/
def Progress.emitBracket (g : Progress) (b : Byte) : Progress :=
  g.andThen fun s k =>
    if s.bracketClearFill then (Progress.running s k).emitCmd b else .running s k

/-- `for i in 0..767: FB[i] <- v` (R88, R90). -/
def State.paintFB (v : Byte) (s : State) : State :=
  s.setFb (fullFramebuffer fun _ => v)

/-- The pseudocode CLEAR and FILL share, for the byte they write (R88, R90). -/
def Progress.surfaceUpdate (v : Byte) (g : Progress) : Progress :=
  (((g.emitBracket displayOffByte).write (State.paintFB v)).pageStream).emitBracket displayOnByte

/-- CLEAR (R88). -/
def execClear (s : State) : Host.Outcome State Fault Refusal :=
  runOperation (Progress.surfaceUpdate 0x00#8) s

/-- FILL (R90). -/
def execFill (s : State) : Host.Outcome State Fault Refusal :=
  runOperation (Progress.surfaceUpdate 0xFF#8) s

end Sys2Proof.Machine
end

