-- ==== Sys2Proof/Machine/Dispatch.lean ====
section
/-! DEFINITION. One arm per operation of the opcode map (30_encoding.md R50). -/

namespace Sys2Proof.Machine

def exec (i : Instr) (s : State) : Host.Outcome State Fault Refusal :=
  match i with
  | .selectPage arg => Sys2Proof.Machine.execSelectPage arg s
  | .selectColumn arg => Sys2Proof.Machine.execSelectColumn arg s
  | .encode => Sys2Proof.Machine.execEncode s
  | .showImage => Sys2Proof.Machine.execShowImage s
  | .clear => Sys2Proof.Machine.execClear s
  | .fill => Sys2Proof.Machine.execFill s

end Sys2Proof.Machine
end

