-- ==== Sys2Proof/Machine/HostAction.lean ====
section
/-! DEFINITION. The host's side of the block: the address map (20_memory.md R32), reads (R33), writes
(R34), refused accesses (R35), issuing an operation (10_state.md R21), and the expansions of
mnemonics and pseudo-operations into host actions (30_encoding.md R54). -/

namespace Sys2Proof.Machine

/-! ### The address map -/

/-- What a host address maps to (R32). -/
inductive Location where
  | pix (a : Nat)
  | fb (i : Nat)
  | imgW
  | imgH
  | opArg
  | opIssue
  | errStatus
  | errInfo
  | sticky
  | unmapped
  deriving DecidableEq, Repr

/-- The host address map (R32). -/
def locationOf (addr : Addr) : Location :=
  if addr.toNat < 0x1800 then .pix addr.toNat
  else if addr.toNat < 0x1B00 then .fb (addr.toNat - 0x1800)
  else if addr.toNat < 0x1C00 then .unmapped
  else if addr.toNat = 0x1C00 then .imgW
  else if addr.toNat = 0x1C01 then .imgH
  else if addr.toNat = 0x1C02 then .opArg
  else if addr.toNat = 0x1C03 then .opIssue
  else if addr.toNat = 0x1C04 then .errStatus
  else if addr.toNat = 0x1C05 then .errInfo
  else if addr.toNat = 0x1C06 then .sticky
  else .unmapped

/-- The address of OP_ARG (R32). -/
def opArgAddr : Addr := 0x1C02#16

/-- The address of OP_ISSUE (R32). -/
def opIssueAddr : Addr := 0x1C03#16

/-- The byte a read of a location returns, none where it is unmapped (R33, R35). OP_ISSUE reads as
0x00 (R21). -/
def State.readLocation (s : State) : Location → Option Byte
  | .pix a => some (s.pixByte a)
  | .fb i => some (s.fbByte i)
  | .imgW => some s.imgW
  | .imgH => some s.imgH
  | .opArg => some s.opArg
  | .opIssue => some 0x00#8
  | .errStatus => some s.errStatus
  | .errInfo => some s.errInfo
  | .sticky => some s.sticky
  | .unmapped => none

/-! ### Host actions -/

/-- Issue the operation `{OP_ARG, opc}` (R21, R46). A reserved word raises RESERVED_OP at decode, with
ERR_INFO = OPC, and nothing else happens (R51, R95, R98). -/
def issue (opc : Byte) (s : State) : Host.Outcome State Fault Refusal :=
  match decode (OpWord.ofBytes s.opArg opc) with
  | .ok i => exec i s
  | .error _ => runOperation (fun g =>
      g.raiseIf (fun _ => true) .configurationError .reservedOp (fun _ => opc)) s

/-- `MemRead(addr, 1)` (R33, R35): the value returned joins the host's observations, and the block's
state does not change (log 8). -/
def hostRead (addr : Addr) (s : State) : Host.Outcome State Fault Refusal :=
  match s.readLocation (locationOf addr) with
  | some v => .next { s with readLog := s.readLog ++ [v] }
  | none => .refused (.unmappedRead addr)

/-- `MemWrite(addr, 1, v)` (R34, R35). -/
def hostWrite (addr : Addr) (v : Byte) (s : State) : Host.Outcome State Fault Refusal :=
  match locationOf addr with
  | .pix a => .next (s.writePix a v)
  | .fb _ => .refused (.readOnlyWrite addr)
  | .imgW => .next { s with imgW := v }
  | .imgH => .next { s with imgH := v }
  | .opArg => .next { s with opArg := v }
  | .opIssue => issue v s
  | .errStatus => .refused (.readOnlyWrite addr)
  | .errInfo => .refused (.readOnlyWrite addr)
  | .sticky => .refused (.readOnlyWrite addr)
  | .unmapped => .refused (.unmappedWrite addr)

/-- One host action (R31). -/
def perform (a : HostAction) (s : State) : Host.Outcome State Fault Refusal :=
  match a with
  | .memRead addr => hostRead addr s
  | .memWrite addr v => hostWrite addr v s
  | .reset => .next s.blockReset

/-- Perform the next host action; a host that has stopped leaves the block in its last state (R31,
R120; log 7). -/
def performNext (s : State) : Host.Outcome State Fault Refusal :=
  match s.hostActions with
  | [] => .next s
  | a :: rest => perform a { s with hostActions := rest }

/-- Put the operation word of bits `w` where the next step issues it: its ARG in OP_ARG, and the write
of its OPC to OP_ISSUE as the host's next action (R21, R46; log 6). -/
def State.placeWord (s : State) (w : Nat) : State :=
  { s with
    opArg := BitVec.ofNat 8 (w / 256)
    hostActions := .memWrite opIssueAddr (BitVec.ofNat 8 w) :: s.hostActions }

/-! ### Host programs (R53, R54) -/

/-- `OP opc, arg` (R54): any operation word, reserved ones included. -/
def opActions (opc arg : Byte) : List HostAction :=
  [.memWrite opArgAddr arg, .memWrite opIssueAddr opc]

/-- The host actions an operation's mnemonic expands to (R54). A mnemonic without an operand does not
write OP_ARG. -/
def mnemonicActions : Instr → List HostAction
  | .selectPage arg => opActions 0x01#8 arg
  | .selectColumn arg => opActions 0x02#8 arg
  | .encode => [.memWrite opIssueAddr 0x03#8]
  | .showImage => [.memWrite opIssueAddr 0x04#8]
  | .clear => [.memWrite opIssueAddr 0x05#8]
  | .fill => [.memWrite opIssueAddr 0x06#8]

/-- `SET_ADDRESS p, c` (R54). -/
def setAddressActions (p c : Byte) : List HostAction :=
  mnemonicActions (.selectPage p) ++ mnemonicActions (.selectColumn c)

/-- `SET_DIMS w, h` (R54). -/
def setDimsActions (w h : Byte) : List HostAction :=
  [.memWrite 0x1C00#16 w, .memWrite 0x1C01#16 h]

/-- `PIXEL r, c, v` (R54). -/
def pixelActions (r c : Nat) (v : Byte) : List HostAction :=
  [.memWrite (BitVec.ofNat 16 (pixelAddress r c)) v]

/-- `FILLPIX v` (R54): the 6144 writes, in rising order. -/
def fillPixActions (v : Byte) : List HostAction :=
  (List.range Config.pixSize).map fun a => .memWrite (BitVec.ofNat 16 a) v

end Sys2Proof.Machine
end

