-- ==== Sys2Proof/Machine/Step.lean ====
section
/-! DEFINITION. One step: the host performs its next action (20_memory.md R31); an operation is one
such step (00_scope.md R10). -/

namespace Sys2Proof.Machine

/-- One step of the machine. -/
def step (s : State) : Host.Outcome State Fault Refusal := performNext s

/-- `s` with the operation word of bits `w` (those above `nbits` zero) issued by the very next step:
OP_ARG holds its ARG and the host's next action writes its OPC to OP_ISSUE (log 6). -/
def State.withFetchWord (s : State) (nbits w : Nat) : State := s.placeWord (w % 2 ^ nbits)

end Sys2Proof.Machine
end

