-- ==== Sys2Proof/Safety.lean ====
section
/-! DEFINITION. The words claims are written in: what an operation sends and where it stops
(40_addressing.md R64, 42_display_update.md R83, R87, R89), images (41_codec.md R76), runs, their
observation and the named premises (70_reset_and_hazards.md R117 to R119), and the invariant. -/

namespace Sys2Proof.Safety

open Sys2Proof.Machine

/-! ### What an operation sends -/

/-- Every one of the next transactions is answered `ok`. -/
def AllOk (s : State) (txs : List Transaction) : Prop :=
  ∀ j tx, txs[j]? = some tx → s.answerAt j tx = .ok

/-- The k-th of the next transactions is `tx` and is the first one answered `fault`. -/
def FirstFault (s : State) (txs : List Transaction) (k : Nat) (tx : Transaction) : Prop :=
  txs[k]? = some tx ∧ s.answerAt k tx = .fault ∧
    ∀ j tx', j < k → txs[j]? = some tx' → s.answerAt j tx' = .ok

/-- `s` after sending `txs`, each answered `ok`: OUT has them in order (R25, R42) and the sink's next
answers have moved on. -/
def sent (s : State) (txs : List Transaction) : State :=
  { s with
    out := s.out ++ txs.map fun tx => (tx, .ok)
    sinkAnswers := s.sinkAnswers.drop txs.length
    sinkDraws := s.sinkDraws + txs.length }

/-- `s` after sending `txs`, each answered `ok`, and then `tx`, answered `fault` (R102). -/
def sentThenFault (s : State) (txs : List Transaction) (tx : Transaction) : State :=
  { s with
    out := s.out ++ (txs.map fun tx => (tx, .ok)) ++ [(tx, .fault)]
    sinkAnswers := s.sinkAnswers.drop (txs.length + 1)
    sinkDraws := s.sinkDraws + (txs.length + 1) }

/-- `s` with the framebuffer `m`. -/
def withFb (s : State) (m : Memory) : State := { s with fb := m }

/-- The error registers after success (R97). -/
def succeeded (s : State) : State := { s with errStatus := 0x00#8, errInfo := 0x00#8 }

/-- The error registers after an error with this ERR_STATUS, ERR_INFO and STICKY flag (R94, R96). -/
def failed (s : State) (status info flag : Byte) : State :=
  { s with errStatus := status, errInfo := info, sticky := s.sticky ||| flag }

/-- The 128 bytes of page `p` in column order, for a framebuffer read through `fb` (R37, R62). -/
def pageBytes (fb : Nat → Byte) (p : Nat) : List Byte :=
  (List.range 128).map fun c => fb (128 * p + c)

/-- The transaction at position `k` of a page stream: four a page (R83, R89). -/
def streamTx (fb : Nat → Byte) (k : Nat) : Transaction :=
  if k % 4 = 0 then .cmd (BitVec.ofNat 8 (0xB0 + k / 4))
  else if k % 4 = 1 then .cmd 0x00#8
  else if k % 4 = 2 then .cmd 0x10#8
  else .data (pageBytes fb (k / 4))

/-- The 24 transactions of a page stream (R82, R83). -/
def streamPlan (fb : Nat → Byte) : List Transaction := (List.range 24).map (streamTx fb)

/-- A page stream between display-off and display-on: 26 transactions (R59, R87). -/
def bracketedPlan (fb : Nat → Byte) : List Transaction :=
  [.cmd 0xAE#8] ++ streamPlan fb ++ [.cmd 0xAF#8]

/-- What CLEAR and FILL send, for the value of P_BRACKET_CLEAR_FILL (R85, R89). -/
def updatePlan (bracket : Bool) (fb : Nat → Byte) : List Transaction :=
  if bracket then bracketedPlan fb else streamPlan fb

/-- The framebuffer every byte of which is `v` (R88, R90). -/
@[irreducible] def uniformFramebuffer (v : Byte) : Memory := (List.range 768).map fun i => (i, v)

/-- The payload of a transaction: the bytes of a Data, nothing of a Cmd. -/
def payload : Transaction → List Byte
  | .cmd _ => []
  | .data bs => bs

/-- A page-select command (R56). -/
def isPageSelect : Transaction → Bool
  | .cmd b => decide (0xB0 ≤ b.toNat ∧ b.toNat ≤ 0xB5)
  | .data _ => false

/-! ### Images -/

/-- A pixel is dark, "on", when its intensity is below 128 (R71). -/
def dark (v : Byte) : Bool := decide (v.toNat < 128)

/-- `fb` is the image in PIX: bit j of byte p*128 + c is the threshold of the pixel at row p*8 + j,
column c (R17, R76). -/
def IsImageOf (s : State) (fb : Nat → Byte) : Prop :=
  ∀ p c j, p < 6 → c < 128 → j < 8 →
    (fb (p * 128 + c)).getLsbD j = dark (s.pixByte ((p * 8 + j) * 128 + c))

/-- IMG_W and IMG_H hold 128 and 48 (R19, R75). -/
def DimsOk (s : State) : Prop := s.imgW = 128#8 ∧ s.imgH = 48#8

/-! ### Runs -/

/-- A run of host actions: the state it reaches and whether an action was refused, which ends it with
no further state (R35, R117). -/
def runActions : List HostAction → State → State × Bool
  | [], s => (s, false)
  | a :: rest, s =>
    match perform a s with
    | .next s' => runActions rest s'
    | .refused _ => (s, true)
    | .fault _ => (s, true)

/-- The map leaves the address unmapped (R32, R35). -/
def Unmapped (addr : Addr) : Prop :=
  (0x1B00 ≤ addr.toNat ∧ addr.toNat < 0x1C00) ∨ 0x1C07 ≤ addr.toNat

/-- The map makes the address read only: FB, ERR_STATUS, ERR_INFO, STICKY (R32, R35). -/
def ReadOnly (addr : Addr) : Prop :=
  (0x1800 ≤ addr.toNat ∧ addr.toNat < 0x1B00) ∨ (0x1C04 ≤ addr.toNat ∧ addr.toNat ≤ 0x1C06)

/-- The host actions that have no meaning: reads and writes at unmapped addresses and writes to read
only ones (R35). -/
def RefusedByMap : HostAction → Prop
  | .memRead addr => Unmapped addr
  | .memWrite addr _ => Unmapped addr ∨ ReadOnly addr
  | .reset => False

/-- The observation of a run (R117): the final block state, OUT, the values read and the refusal
mark. PIX and FB are given by their bytes. -/
structure Observation where
  pix : List Byte
  fb : List Byte
  imgW : Byte
  imgH : Byte
  opArg : Byte
  errStatus : Byte
  errInfo : Byte
  sticky : Byte
  out : List (Transaction × SinkAnswer)
  reads : List Byte
  refused : Bool
  deriving DecidableEq, Repr

/-- The observation of the run of a list of host actions from a state (R117). -/
def observe (actions : List HostAction) (s : State) : Observation :=
  let (t, refused) := runActions actions s
  { pix := (List.range 6144).map t.pixByte
    fb := (List.range 768).map t.fbByte
    imgW := t.imgW
    imgH := t.imgH
    opArg := t.opArg
    errStatus := t.errStatus
    errInfo := t.errInfo
    sticky := t.sticky
    out := t.out
    reads := t.readLog
    refused := refused }

/-- The named premise CleanLaunch (R118): a reset state, PIX and FB arbitrary. -/
def CleanLaunch (s : State) : Prop :=
  s.imgW = 128#8 ∧ s.imgH = 48#8 ∧ s.opArg = 0x00#8 ∧ s.errStatus = 0x00#8 ∧
    s.errInfo = 0x00#8 ∧ s.sticky = 0x00#8 ∧ s.out = []

/-- The named premise PixWritten(img) (R118), as what it leaves in the state: every PIX byte has been
written since reset and holds the image. -/
def PixWritten (img : Nat → Byte) (s : State) : Prop :=
  ∀ a, a < 6144 → Memory.lookup s.pix a = some (img a)

/-- The named premise NoErrorRecorded (R119). -/
def NoErrorRecorded (s : State) : Prop := s.sticky = 0x00#8

/-- The action issues an operation: a write to OP_ISSUE (R21, R31). -/
def isIssue : HostAction → Bool
  | .memWrite addr _ => decide (addr = 0x1C03#16)
  | .memRead _ => false
  | .reset => false

/-- Some operation of the run ends with an error, a nonzero ERR_STATUS right after it (R22, R119). -/
def someOperationFails : List HostAction → State → Prop
  | [], _ => False
  | a :: rest, s =>
    match perform a s with
    | .next s' => (isIssue a = true ∧ s'.errStatus ≠ 0x00#8) ∨ someOperationFails rest s'
    | .refused _ => False
    | .fault _ => False

/-! ### The invariant -/

/-- A transaction the block can emit: a command byte of its vocabulary (R60, R61) or one page of 128
bytes (R62). -/
def emittable : Transaction → Prop
  | .cmd b => commandOfByte b ≠ none
  | .data bs => bs.length = 128

/-- What ERR_INFO may hold beside ERR_STATUS, by cause (R94). -/
def InfoFits (status info : Byte) : Prop :=
  (status = 0x00#8 ∧ info = 0x00#8) ∨
  (status = 0x11#8 ∧ (info.toNat = 0 ∨ 7 ≤ info.toNat)) ∨
  (status = 0x12#8 ∧ 5 < info.toNat) ∨
  (status = 0x13#8 ∧ 127 < info.toNat) ∨
  (status = 0x24#8 ∧ 1 ≤ info.toNat ∧ info.toNat ≤ 3) ∨
  (status = 0x35#8 ∧ info.toNat ≤ 25)

/-- The invariant of the block. -/
structure Inv (s : State) : Prop where
  /-- PIX is in canonical form, within its 6144 addresses (R15). -/
  pixWf : Memory.wf 6144 s.pix
  /-- FB is in canonical form, within its 768 indexes (R16). -/
  fbWf : Memory.wf 768 s.fb
  /-- FB has been written wholly or not at all since reset (R30). -/
  fbWhole : s.fb = [] ∨ ∀ i, i < 768 → Memory.lookup s.fb i ≠ none
  /-- ERR_STATUS is one of the six bytes of R94, and ERR_INFO fits its cause. -/
  info : InfoFits s.errStatus s.errInfo
  /-- STICKY bits 7:3 read 0 (R24). -/
  stickyReserved : s.sticky.toNat < 8
  /-- A recorded error's kind has its STICKY flag set (R24, R96). -/
  stickyCoversStatus : s.errStatus ≠ 0x00#8 →
    s.sticky.getLsbD ((kindField s.errStatus).toNat - 1) = true
  /-- Only emittable transactions are ever emitted (R60 to R62). -/
  outEmittable : ∀ e ∈ s.out, emittable e.1
  /-- TRANSPORT_SEEN holds exactly when a transaction since reset was answered `fault` (R24, R102). -/
  transportSeen : s.sticky.getLsbD 2 = true ↔ ∃ e ∈ s.out, e.2 = .fault
  /-- A recorded TransportFault's transaction is the last of OUT (R102). -/
  lastFaulted : s.errStatus = 0x35#8 → ∃ tx, s.out.getLast? = some (tx, .fault)

end Sys2Proof.Safety
end

