-- ==== Sys2Proof/Certificates/Slice0/Obligations.lean ====
section
/-! DEFINITION. The statements for the provers. Each docstring names the rule of spec/ it formalises;
where a clause rests on a choice of the model, it names the log entry. -/

open Sys2Proof Sys2Proof.Machine Sys2Proof.Safety

/-! ### Reset and stepping -/

/-- R29: the registers after reset hold exactly the values of its table, OUT is empty, every byte of
PIX and FB is a free draw, and a drawn or written byte stays until the host writes it (PIX) or an
operation writes it (FB), or the next reset. -/
def Obligations.ResetStateAndFreeDraws : Prop :=
  CleanLaunch State.reset ∧
  (∀ a, a < 6144 → State.reset.pixByte a = Config.pixDraw 0 a) ∧
  (∀ i, i < 768 → State.reset.fbByte i = Config.fbDraw 0 i) ∧
  (∀ (s t : State) (act : HostAction) (a : Nat), a < 6144 → perform act s = .next t →
    act ≠ .reset → (∀ v, act ≠ .memWrite (BitVec.ofNat 16 a) v) → t.pixByte a = s.pixByte a) ∧
  (∀ (s t : State) (act : HostAction) (i : Nat), i < 768 → perform act s = .next t →
    act ≠ .reset → isIssue act = false → t.fbByte i = s.fbByte i)

/-- R107: the host action Reset enters the state of R29 again with fresh draws and OUT empty, from
every state. That the model's inputs and the host's observations stay is the model's choice (log 9). -/
def Obligations.HostResetReentersLaunchState : Prop :=
  ∀ s : State, ∃ t : State, perform .reset s = .next t ∧ CleanLaunch t ∧
    (∀ a, t.pixByte a = Config.pixDraw (s.resetCount + 1) a) ∧
    (∀ i, t.fbByte i = Config.fbDraw (s.resetCount + 1) i) ∧
    t.bracketClearFill = s.bracketClearFill ∧ t.sinkAnswers = s.sinkAnswers ∧
    t.sinkDraws = s.sinkDraws ∧ t.resetCount = s.resetCount + 1 ∧
    t.hostActions = s.hostActions ∧ t.readLog = s.readLog

/-- R21, R31: a step performs the host's next action and takes it off the list; a write to OP_ISSUE
runs the operation the word `{OP_ARG, v}` decodes to; a word placed by withFetchWord is run by the
very next step. The list of actions is the model's own field (log 6). -/
def Obligations.StepRunsDecodedOperation : Prop :=
  (∀ (s : State) (a : HostAction) (rest : List HostAction), s.hostActions = a :: rest →
    step s = perform a { s with hostActions := rest }) ∧
  (∀ (s : State) (v : Byte) (rest : List HostAction) (i : Instr),
    s.hostActions = .memWrite 0x1C03#16 v :: rest →
    decode (OpWord.ofBytes s.opArg v) = .ok i →
    step s = exec i { s with hostActions := rest }) ∧
  (∀ (s : State) (w : Nat) (i : Instr), w < 65536 → decodeTableWord 16 w = some i →
    step (s.withFetchWord 16 w) = exec i { s with opArg := BitVec.ofNat 8 (w / 256) })

/-- A host that has no action left leaves the block in its last state: the model's reading of R120
(log 7). -/
def Obligations.StoppedHostLeavesLastState : Prop :=
  ∀ s : State, s.hostActions = [] → step s = .next s

/-! ### Encoding -/

/-- Words written out from R46 and R50: OPC in bits 7:0, ARG in bits 15:8. -/
def Obligations.WrittenOutWordsDecode : Prop :=
  decode 0b0000001100000001#16 = .ok (.selectPage 3#8) ∧
  decode 0b0101101000000010#16 = .ok (.selectColumn 0x5A#8) ∧
  decode 0b1111111100000011#16 = .ok .encode ∧
  decode 0b0000000000000100#16 = .ok .showImage ∧
  decode 0b0000000000000101#16 = .ok .clear ∧
  decode 0b0000000000000110#16 = .ok .fill ∧
  decode 0b0000010100000111#16 = .error (.reservedOpcode 0x07#8) ∧
  decode 0b0000000000000000#16 = .error (.reservedOpcode 0x00#8)

/-- Decoding an encoded operation gives it back, with every operand byte (R46, R47, R50); so do the
byte form, which leaves the bytes after it, and the table's numbering of the bits. -/
def Obligations.DecodeInvertsEncode : Prop :=
  ∀ (i : Instr) (rest : List Byte),
    decode (encode i) = .ok i ∧
    decodeBytes ((encode i).opc :: (encode i).arg :: rest) = .ok (i, rest) ∧
    decodeTableWord 16 (encode i).toNat = some i

/-- R49: decoding looks at OPC alone and is total; every word selects exactly one row of the opcode
map, the row of the operation it decodes to, or selects none and is reserved. -/
def Obligations.DecodingIsTotalAndUnambiguous : Prop :=
  (∀ r ∈ opcodeTable, r.mask = 0x00FF#16) ∧
  (∀ w : OpWord,
    (∃ i, decode w = .ok i ∧ w.opc = i.opcode ∧
      (∀ r ∈ opcodeTable, r.selects w = true ↔ r.mnemonic = i.mnemonic) ∧
      ∃ r ∈ opcodeTable, r.selects w = true) ∨
    (decode w = .error (.reservedOpcode w.opc) ∧ ∀ r ∈ opcodeTable, r.selects w = false)) ∧
  (∀ w w' : OpWord, w.opc = w'.opc →
    (decode w).map Instr.mnemonic = (decode w').map Instr.mnemonic)

/-- R48: ENCODE, SHOW_IMAGE, CLEAR and FILL run alike whatever ARG holds, and whatever ARG holds the
column commands of SHOW_IMAGE select column 0. -/
def Obligations.ArgIgnoredWithoutOperand : Prop :=
  (∀ (s : State) (opc a b : Byte), 3 ≤ opc.toNat → opc.toNat ≤ 6 →
    ∃ t : State, issue opc { s with opArg := a } = .next { t with opArg := a } ∧
      issue opc { s with opArg := b } = .next { t with opArg := b }) ∧
  (∀ (s t : State), issue 0x04#8 s = .next t →
    ∀ e ∈ t.out.drop s.out.length, ∀ b n, e.1 = .cmd b →
      (commandOfByte b = some (.columnLow n) ∨ commandOfByte b = some (.columnHigh n)) → n = 0)

/-- R98, R51: OPC 0x00 and 0x07..0xFF are reserved; issuing one records ConfigurationError /
RESERVED_OP with ERR_INFO = OPC, whatever ARG holds, and changes nothing else. -/
def Obligations.ReservedWordRecordsConfigurationError : Prop :=
  ∀ (s : State) (opc : Byte), opc.toNat = 0 ∨ 7 ≤ opc.toNat →
    decode (OpWord.ofBytes s.opArg opc) = .error (.reservedOpcode opc) ∧
    perform (.memWrite 0x1C03#16 opc) s =
      .next { s with errStatus := 0x11#8, errInfo := opc, sticky := s.sticky ||| 0x01#8 }

/-- R56, R57, R61: the command bytes of the block, and the command a reader of OUT recovers from
each. -/
def Obligations.CommandBytesNameOneCommand : Prop :=
  (∀ page : BitVec 16, page.toNat ≤ 5 →
    (pageSelectByte page).toNat = 0xB0 + page.toNat ∧
    commandOfByte (pageSelectByte page) = some (.pageSelect page.toNat)) ∧
  (∀ col : BitVec 16, col.toNat ≤ 127 →
    (columnLowByte col).toNat = col.toNat % 16 ∧
    commandOfByte (columnLowByte col) = some (.columnLow (col.toNat % 16)) ∧
    (columnHighByte col).toNat = 0x10 + col.toNat / 16 ∧
    commandOfByte (columnHighByte col) = some (.columnHigh (col.toNat / 16))) ∧
  displayOffByte = 0xAE#8 ∧ commandOfByte 0xAE#8 = some .displayOff ∧
  displayOnByte = 0xAF#8 ∧ commandOfByte 0xAF#8 = some .displayOn

/-- R67: ColumnCmds by its formula, and its four worked values. -/
def Obligations.ColumnCmdsFormulaAndValues : Prop :=
  (∀ col : BitVec 16, columnCmds col =
    (0x00#8 ||| (col &&& 0xF#16).setWidth 8, 0x10#8 ||| ((col >>> 4) &&& 0xF#16).setWidth 8)) ∧
  columnCmds 0#16 = (0x00#8, 0x10#8) ∧ columnCmds 15#16 = (0x0F#8, 0x10#8) ∧
  columnCmds 16#16 = (0x00#8, 0x11#8) ∧ columnCmds 127#16 = (0x0F#8, 0x17#8)

/-! ### Addressing -/

/-- R66: SELECT_PAGE, for every ARG and every answer of the sink: the whole next state. (The
sink's own progress in it is the model's field, log 3.) -/
def Obligations.SelectPageResult : Prop :=
  ∀ (arg : Byte) (s : State),
    decode (OpWord.ofBytes arg 0x01#8) = .ok (.selectPage arg) ∧
    (5 < arg.toNat →
      exec (.selectPage arg) s = .next (failed s 0x12#8 arg 0x01#8)) ∧
    (arg.toNat ≤ 5 → s.answerAt 0 (.cmd (0xB0#8 ||| arg)) = .ok →
      exec (.selectPage arg) s = .next (succeeded (sent s [.cmd (0xB0#8 ||| arg)]))) ∧
    (arg.toNat ≤ 5 → s.answerAt 0 (.cmd (0xB0#8 ||| arg)) = .fault →
      exec (.selectPage arg) s =
        .next (failed (sentThenFault s [] (.cmd (0xB0#8 ||| arg))) 0x35#8 0x00#8 0x04#8))

/-- R68: SELECT_COLUMN, for every ARG and every answer of the sink: the whole next state. (The
sink's own progress in it is the model's field, log 3.) -/
def Obligations.SelectColumnResult : Prop :=
  ∀ (arg : Byte) (s : State),
    let plan : List Transaction :=
      [.cmd (0x00#8 ||| (arg &&& 0xF#8)), .cmd (0x10#8 ||| ((arg >>> 4) &&& 0xF#8))]
    decode (OpWord.ofBytes arg 0x02#8) = .ok (.selectColumn arg) ∧
    (127 < arg.toNat →
      exec (.selectColumn arg) s = .next (failed s 0x13#8 arg 0x01#8)) ∧
    (arg.toNat ≤ 127 → AllOk s plan →
      exec (.selectColumn arg) s = .next (succeeded (sent s plan))) ∧
    (∀ k tx, arg.toNat ≤ 127 → FirstFault s plan k tx →
      exec (.selectColumn arg) s =
        .next (failed (sentThenFault s (plan.take k) tx) 0x35#8 (BitVec.ofNat 8 k) 0x04#8))

/-- R69: the addressing operations change OUT and the error registers alone (beside the sink moving
on, log 3), and run alike whatever the framebuffer holds. -/
def Obligations.AddressingTouchesOnlyOutAndErrors : Prop :=
  ∀ (i : Instr) (arg : Byte) (s : State), i = .selectPage arg ∨ i = .selectColumn arg →
    ∃ t : State, exec i s = .next t ∧
      t = { s with out := t.out, errStatus := t.errStatus, errInfo := t.errInfo,
                   sticky := t.sticky, sinkAnswers := t.sinkAnswers, sinkDraws := t.sinkDraws } ∧
      ∀ m : Memory, exec i { s with fb := m } = .next { t with fb := m }

/-! ### The codec -/

/-- R71, R72: the threshold, as a comparison and as the inverted top bit. -/
def Obligations.ThresholdIsInvertedTopBit : Prop :=
  ∀ v : Byte, thr v = (if v.toNat < 128 then 1#1 else 0#1) ∧ thr v = ~~~(v.extractLsb' 7 1)

/-- R75: ENCODE writes all 768 bytes of FB with the packed pixels and nothing else but the error
registers, or raises InvalidDimensions and leaves FB as it was. -/
def Obligations.EncodeResult : Prop :=
  (∀ arg, decode (OpWord.ofBytes arg 0x03#8) = .ok .encode) ∧
  (∀ s : State, DimsOk s → ∃ m : Memory,
    exec .encode s = .next (succeeded (withFb s m)) ∧ Memory.wf 768 m ∧
    ∀ p c, p < 6 → c < 128 → ∃ b, Memory.lookup m (p * 128 + c) = some b ∧
      ∀ j, j < 8 → b.getLsbD j = dark (s.pixByte ((p * 8 + j) * 128 + c))) ∧
  (∀ s : State, ¬ DimsOk s →
    exec .encode s = .next (failed s 0x24#8
      (BitVec.ofNat 8 ((if s.imgW ≠ 128#8 then 1 else 0) + (if s.imgH ≠ 48#8 then 2 else 0)))
      0x02#8))

/-- R76: the closed form of a successful ENCODE, by framebuffer bit and by pixel, and that the
correspondence of pixels and bits is one to one. -/
def Obligations.EncodeClosedForm : Prop :=
  (∀ s : State, DimsOk s → ∃ t : State, exec .encode s = .next t ∧
    (∀ p c j, p < 6 → c < 128 → j < 8 →
      (t.fbByte (p * 128 + c)).getLsbD j = dark (s.pixByte ((p * 8 + j) * 128 + c)) ∧
      (t.fbByte (p * 128 + c)).getLsbD j = !(s.pixByte ((p * 8 + j) * 128 + c)).getLsbD 7) ∧
    (∀ r c, r < 48 → c < 128 →
      (t.fbByte ((r / 8) * 128 + c)).getLsbD (r % 8) = dark (s.pixByte (r * 128 + c)))) ∧
  (∀ i j, i < 768 → j < 8 →
    ∃ r c, r < 48 ∧ c < 128 ∧ (r / 8) * 128 + c = i ∧ r % 8 = j ∧
      ∀ r' c', r' < 48 → c' < 128 → (r' / 8) * 128 + c' = i → r' % 8 = j → r' = r ∧ c' = c)

/-- R77: the framebuffer ENCODE leaves is what writing the 768 packed bytes one by one leaves, in the
order of the pseudocode's loops and in every other order, whatever FB held before; it depends on PIX
alone; and encoding again changes nothing. -/
def Obligations.EncodeIndependentOfWriteOrder : Prop :=
  ∀ s : State, DimsOk s → ∃ t : State, exec .encode s = .next t ∧
    (∀ m : Memory, Memory.wf 768 m →
      (List.range 6).foldl (fun m p => (List.range 128).foldl
        (fun m c => Memory.write m (p * 128 + c) (s.pack p c)) m) m = t.fb) ∧
    (∀ (order : List Nat) (m : Memory), order.Perm (List.range 768) → Memory.wf 768 m →
      order.foldl (fun m i => Memory.write m i (s.pack (i / 128) (i % 128))) m = t.fb) ∧
    (∀ s' : State, DimsOk s' → (∀ a, a < 6144 → s'.pixByte a = s.pixByte a) →
      ∃ t', exec .encode s' = .next t' ∧ t'.fb = t.fb) ∧
    exec .encode t = .next t

/-- R78: one dark pixel at row r, column c gives exactly one nonzero byte, at (r/8)*128 + c, with
value 1 << (r % 8). -/
def Obligations.SinglePixelEncodesToOneBit : Prop :=
  ∀ (s : State) (r c : Nat), DimsOk s → r < 48 → c < 128 →
    (s.pixByte (r * 128 + c)).toNat < 128 →
    (∀ a, a < 6144 → a ≠ r * 128 + c → 128 ≤ (s.pixByte a).toNat) →
    ∃ t : State, exec .encode s = .next t ∧
      ∀ i, i < 768 → t.fbByte i = if i = (r / 8) * 128 + c then 1#8 <<< (r % 8) else 0x00#8

/-- R79: an all-light image encodes to 768 bytes 0x00, an all-dark one to 768 bytes 0xFF. -/
def Obligations.EncodePolarity : Prop :=
  ∀ s : State, DimsOk s →
    ((∀ a, a < 6144 → 128 ≤ (s.pixByte a).toNat) →
      ∃ t : State, exec .encode s = .next t ∧ ∀ i, i < 768 → t.fbByte i = 0x00#8) ∧
    ((∀ a, a < 6144 → (s.pixByte a).toNat < 128) →
      ∃ t : State, exec .encode s = .next t ∧ ∀ i, i < 768 → t.fbByte i = 0xFF#8)

/-- R80: every framebuffer value is the encoding of an image, for example of the one with intensity 0
where a bit is wanted and 255 elsewhere; and images alike up to the threshold encode alike. -/
def Obligations.EveryFramebufferIsAnEncoding : Prop :=
  (∀ (s : State) (f : Nat → Byte), DimsOk s → ∃ pix : Memory, Memory.wf 6144 pix ∧
    (∀ a, a < 6144 → Memory.lookup pix a =
      some (if (f (a / 128 / 8 * 128 + a % 128)).getLsbD (a / 128 % 8) then 0x00#8 else 0xFF#8)) ∧
    ∃ t : State, exec .encode { s with pix := pix } = .next t ∧ ∀ i, i < 768 → t.fbByte i = f i) ∧
  (∀ s s' : State, DimsOk s → DimsOk s' →
    (∀ a, a < 6144 → dark (s.pixByte a) = dark (s'.pixByte a)) →
    ∃ t t' : State, exec .encode s = .next t ∧ exec .encode s' = .next t' ∧ t.fb = t'.fb)

/-! ### Whole-surface updates -/

/-- R82, R83: the transactions of a page stream by position, and their number. -/
def Obligations.PageStreamPositions : Prop :=
  ∀ (s : State) (k : Byte),
    (Progress.running s k).pageStream =
      (streamPlan s.fbByte).foldl (fun g tx => g.emitFrom fun _ => tx) (.running s k) ∧
    (streamPlan s.fbByte).length = 24 ∧
    ∀ p, p < 6 →
      (streamPlan s.fbByte)[4 * p]? = some (Transaction.cmd (0xB0#8 ||| BitVec.ofNat 8 p)) ∧
      (streamPlan s.fbByte)[4 * p + 1]? = some (Transaction.cmd 0x00#8) ∧
      (streamPlan s.fbByte)[4 * p + 2]? = some (Transaction.cmd 0x10#8) ∧
      (streamPlan s.fbByte)[4 * p + 3]? =
        some (Transaction.data ((List.range 128).map fun c => s.fbByte (p * 128 + c)))

/-- R86: SHOW_IMAGE, for every answer of the sink: the whole next state. `fb` is the packed image.
(The sink's own progress in it is the model's field, log 3.) -/
def Obligations.ShowImageResult : Prop :=
  (∀ arg, decode (OpWord.ofBytes arg 0x04#8) = .ok .showImage) ∧
  (∀ s : State, ¬ DimsOk s →
    exec .showImage s = .next (failed s 0x24#8
      (BitVec.ofNat 8 ((if s.imgW ≠ 128#8 then 1 else 0) + (if s.imgH ≠ 48#8 then 2 else 0)))
      0x02#8)) ∧
  (∀ (s : State) (fb : Nat → Byte), DimsOk s → IsImageOf s fb →
    ∃ m : Memory, Memory.wf 768 m ∧ (∀ i, i < 768 → Memory.lookup m i = some (fb i)) ∧
      (AllOk s (bracketedPlan fb) →
        exec .showImage s = .next (succeeded (sent (withFb s m) (bracketedPlan fb)))) ∧
      (∀ k tx, FirstFault s (bracketedPlan fb) k tx →
        exec .showImage s = .next (failed
          (sentThenFault (if k = 0 then s else (withFb s m)) ((bracketedPlan fb).take k) tx)
          0x35#8 (BitVec.ofNat 8 k) 0x04#8)))

/-- R87: SHOW_IMAGE's complete output when no transaction faults, by position. -/
def Obligations.ShowImageOutputTable : Prop :=
  ∀ s : State, DimsOk s →
    (∀ fb, IsImageOf s fb → AllOk s (bracketedPlan fb)) →
    ∃ (t : State) (new : List Transaction), exec .showImage s = .next t ∧
      t.out = s.out ++ new.map (fun tx => (tx, .ok)) ∧ new.length = 26 ∧
      new[0]? = some (Transaction.cmd 0xAE#8) ∧ new[25]? = some (Transaction.cmd 0xAF#8) ∧
      ∀ p, p < 6 →
        new[1 + 4 * p]? = some (Transaction.cmd (BitVec.ofNat 8 (0xB0 + p))) ∧
        new[2 + 4 * p]? = some (Transaction.cmd 0x00#8) ∧
        new[3 + 4 * p]? = some (Transaction.cmd 0x10#8) ∧
        new[4 + 4 * p]? = some (Transaction.data ((List.range 128).map fun c => t.fbByte (128 * p + c)))

/-- R88, R89: CLEAR, for both values of P_BRACKET_CLEAR_FILL and every answer of the sink: the whole
next state. (The sink's own progress in it is the model's field, log 3; the parameter's, log 5.) -/
def Obligations.ClearResult : Prop :=
  (∀ arg, decode (OpWord.ofBytes arg 0x05#8) = .ok .clear) ∧
  ∀ s : State,
    let plan := updatePlan s.bracketClearFill fun _ => 0x00#8
    (AllOk s plan →
      exec .clear s = .next (succeeded (sent (withFb s (uniformFramebuffer 0x00#8)) plan))) ∧
    (∀ k tx, FirstFault s plan k tx →
      exec .clear s = .next (failed
        (sentThenFault
          (if k = 0 ∧ s.bracketClearFill = true then s
            else (withFb s (uniformFramebuffer 0x00#8))) (plan.take k) tx)
        0x35#8 (BitVec.ofNat 8 k) 0x04#8))

/-- R90, R91: FILL, for both values of P_BRACKET_CLEAR_FILL and every answer of the sink: the whole
next state. (The sink's own progress in it is the model's field, log 3; the parameter's, log 5.) -/
def Obligations.FillResult : Prop :=
  (∀ arg, decode (OpWord.ofBytes arg 0x06#8) = .ok .fill) ∧
  ∀ s : State,
    let plan := updatePlan s.bracketClearFill fun _ => 0xFF#8
    (AllOk s plan →
      exec .fill s = .next (succeeded (sent (withFb s (uniformFramebuffer 0xFF#8)) plan))) ∧
    (∀ k tx, FirstFault s plan k tx →
      exec .fill s = .next (failed
        (sentThenFault
          (if k = 0 ∧ s.bracketClearFill = true then s
            else (withFb s (uniformFramebuffer 0xFF#8))) (plan.take k) tx)
        0x35#8 (BitVec.ofNat 8 k) 0x04#8))

/-- R92: CLEAR then FILL, without a bracket and with every answer ok: 12 page selects, 768 payload
bytes 0x00 then 768 bytes 0xFF, and on every page the select, the two column commands and one Data. -/
def Obligations.ClearThenFillOutput : Prop :=
  ∀ s : State, s.bracketClearFill = false →
    AllOk s (streamPlan (fun _ => 0x00#8) ++ streamPlan (fun _ => 0xFF#8)) →
    ∃ (t u : State) (new : List Transaction),
      exec .clear s = .next t ∧ exec .fill t = .next u ∧
      u.out = s.out ++ new.map (fun tx => (tx, .ok)) ∧
      t.out = s.out ++ (new.take 24).map (fun tx => (tx, .ok)) ∧ new.length = 48 ∧
      ((new.take 24).filter isPageSelect).length = 6 ∧
      ((new.drop 24).filter isPageSelect).length = 6 ∧
      new.flatMap payload = List.replicate 768 0x00#8 ++ List.replicate 768 0xFF#8 ∧
      ∀ p, p < 6 →
        (new.drop (4 * p)).take 4 = [.cmd (BitVec.ofNat 8 (0xB0 + p)), .cmd 0x00#8, .cmd 0x10#8,
          .data (List.replicate 128 0x00#8)]

/-- R84: an earlier SELECT_PAGE or SELECT_COLUMN has no effect on what an update sends. -/
def Obligations.UpdatesIgnoreEarlierAddressing : Prop :=
  ∀ (s : State) (i op : Instr) (arg : Byte), i = .selectPage arg ∨ i = .selectColumn arg →
    op = .showImage ∨ op = .clear ∨ op = .fill →
    (∀ j tx, j < 28 → s.answerAt j tx = .ok) →
    ∃ (t u v : State) (new : List (Transaction × SinkAnswer)),
      exec i s = .next t ∧ exec op s = .next u ∧ exec op t = .next v ∧
      u.out = s.out ++ new ∧ v.out = t.out ++ new ∧ u.fb = v.fb

/-- R79, R90: FILL leaves the framebuffer ENCODE makes of an all-dark image, and CLEAR that of an
all-light one (unless a bracketing display-off faults, R88). -/
def Obligations.FillAndClearMatchUniformImages : Prop :=
  ∀ s : State, DimsOk s →
    (s.bracketClearFill = true → s.answerAt 0 (.cmd 0xAE#8) = .ok) →
    ((∀ a, a < 6144 → (s.pixByte a).toNat < 128) →
      ∃ t u : State, exec .encode s = .next t ∧ exec .fill s = .next u ∧ u.fb = t.fb) ∧
    ((∀ a, a < 6144 → 128 ≤ (s.pixByte a).toNat) →
      ∃ t u : State, exec .encode s = .next t ∧ exec .clear s = .next u ∧ u.fb = t.fb)

/-- The block's whole purpose (R4, R37, R76, R87): from a written image of the right size, with a sink
that answers ok, the host's SHOW_IMAGE sends 768 payload bytes in which the pixel at row r, column c
is bit r % 8 of byte (r/8)*128 + c. -/
def Obligations.WrittenImageReachesOutput : Prop :=
  ∀ (s : State) (img : Nat → Byte), PixWritten img s → DimsOk s →
    (∀ j tx, j < 26 → s.answerAt j tx = .ok) →
    ∃ (t : State) (new : List Transaction),
      perform (.memWrite 0x1C03#16 0x04#8) s = .next t ∧
      t.out = s.out ++ new.map (fun tx => (tx, .ok)) ∧
      t.errStatus = 0x00#8 ∧ t.sticky = s.sticky ∧
      (new.flatMap payload).length = 768 ∧
      ∀ r c, r < 48 → c < 128 → ∃ b, (new.flatMap payload)[(r / 8) * 128 + c]? = some b ∧
        b.getLsbD (r % 8) = dark (img (r * 128 + c))

/-! ### Errors -/

/-- R94, R96: the bytes an error records, and that recording changes the three error registers
alone. -/
def Obligations.RecordedErrorBytes : Prop :=
  (∀ (s : State) (kind : ErrorKind) (cause : Cause) (info : Byte),
    s.recordError kind cause info =
      { s with errStatus := (kind.code <<< 4) ||| cause.code, errInfo := info,
               sticky := s.sticky ||| (1#8 <<< (kind.code.toNat - 1)) }) ∧
  errStatusByte .configurationError .reservedOp = 0x11#8 ∧
  errStatusByte .configurationError .pageRange = 0x12#8 ∧
  errStatusByte .configurationError .columnRange = 0x13#8 ∧
  errStatusByte .invalidDimensions .dimMismatch = 0x24#8 ∧
  errStatusByte .transportFault .transport = 0x35#8 ∧
  stickyFlag .configurationError = 0x01#8 ∧ stickyFlag .invalidDimensions = 0x02#8 ∧
  stickyFlag .transportFault = 0x04#8

/-- R95 to R97, R102: every operation completes in every state, and reports at most one error: it
succeeds with every new transaction answered ok; or it is turned away by its own check with nothing
else changed; or a transaction is the first answered fault, the last emitted, and its position is in
ERR_INFO. -/
def Obligations.OperationReportsAtMostOneError : Prop :=
  ∀ (i : Instr) (s : State), ∃ t : State, exec i s = .next t ∧
    ((t.errStatus = 0x00#8 ∧ t.errInfo = 0x00#8 ∧ t.sticky = s.sticky ∧
        ∃ txs : List Transaction, t.out = s.out ++ txs.map fun tx => (tx, .ok)) ∨
     (∃ arg, i = .selectPage arg ∧ 5 < arg.toNat ∧ t = failed s 0x12#8 arg 0x01#8) ∨
     (∃ arg, i = .selectColumn arg ∧ 127 < arg.toNat ∧ t = failed s 0x13#8 arg 0x01#8) ∨
     ((i = .encode ∨ i = .showImage) ∧ ¬ DimsOk s ∧
        ∃ info : Byte, 1 ≤ info.toNat ∧ info.toNat ≤ 3 ∧ t = failed s 0x24#8 info 0x02#8) ∨
     (i ≠ .encode ∧ t.errStatus = 0x35#8 ∧ t.sticky = s.sticky ||| 0x04#8 ∧
        ∃ (txs : List Transaction) (tx : Transaction), txs.length ≤ 25 ∧
          t.errInfo = BitVec.ofNat 8 txs.length ∧
          t.out = s.out ++ (txs.map fun tx => (tx, .ok)) ++ [(tx, .fault)]))

/-- R95: a ConfigurationError or InvalidDimensions error leaves FB and OUT exactly as they were,
reserved words included. -/
def Obligations.EarlyErrorsLeaveFbAndOut : Prop :=
  ∀ (s : State) (opc : Byte), ∃ t : State, perform (.memWrite 0x1C03#16 opc) s = .next t ∧
    ((kindField t.errStatus = 1#2 ∨ kindField t.errStatus = 2#2) →
      t = { s with errStatus := t.errStatus, errInfo := t.errInfo, sticky := t.sticky })

/-- R15, R19, R20, R28: no operation changes PIX, IMG_W, IMG_H, OP_ARG or an input of the model other
than the sink's progress; only ENCODE, SHOW_IMAGE, CLEAR and FILL change FB, and ENCODE sends
nothing. -/
def Obligations.OperationFrame : Prop :=
  ∀ (i : Instr) (s : State), ∃ t : State, exec i s = .next t ∧
    t.pix = s.pix ∧ t.imgW = s.imgW ∧ t.imgH = s.imgH ∧ t.opArg = s.opArg ∧
    t.bracketClearFill = s.bracketClearFill ∧ t.resetCount = s.resetCount ∧
    t.hostActions = s.hostActions ∧ t.readLog = s.readLog ∧
    (∀ a, t.pixByte a = s.pixByte a) ∧
    (∀ arg, (i = .selectPage arg ∨ i = .selectColumn arg) → ∀ k, t.fbByte k = s.fbByte k) ∧
    (i = .encode → t.out = s.out ∧ t.sinkAnswers = s.sinkAnswers ∧ t.sinkDraws = s.sinkDraws)

/-- R24: a flag of STICKY is ORed in when an operation ends with its kind of error, no other host
action but Reset changes STICKY, Reset clears it, and bits 7:3 stay 0. -/
def Obligations.StickyAccumulatesUntilReset : Prop :=
  ∀ (a : HostAction) (s t : State), perform a s = .next t →
    (isIssue a = true → t.sticky = if t.errStatus = 0x00#8 then s.sticky
      else s.sticky ||| (1#8 <<< ((kindField t.errStatus).toNat - 1))) ∧
    (isIssue a = false → a ≠ .reset → t.sticky = s.sticky) ∧
    (a = .reset → t.sticky = 0x00#8) ∧
    (s.sticky.toNat < 8 → t.sticky.toNat < 8)

/-- R119: over a run without a Reset, NoErrorRecorded holds at the end exactly when no operation of
the run ended with an error. (With a Reset in the run the flags speak of the time since it: log 18.) -/
def Obligations.NoErrorRecordedExactlyWhenNoneFailed : Prop :=
  ∀ (actions : List HostAction) (s : State), HostAction.reset ∉ actions → NoErrorRecorded s →
    (NoErrorRecorded (runActions actions s).1 ↔ ¬ someOperationFails actions s)

/-! ### The host's side -/

/-- R33: what a host read returns at every address; it changes no block state. The value joins the
model's readLog (log 8). -/
def Obligations.HostReadFollowsMap : Prop :=
  ∀ (s : State) (addr : Addr) (n : Nat), n = addr.toNat →
    let returns (v : Byte) : Prop :=
      perform (.memRead addr) s = .next { s with readLog := s.readLog ++ [v] }
    (n < 0x1800 → returns (s.pixByte n)) ∧
    (0x1800 ≤ n → n < 0x1B00 → returns (s.fbByte (n - 0x1800))) ∧
    (n = 0x1C00 → returns s.imgW) ∧ (n = 0x1C01 → returns s.imgH) ∧
    (n = 0x1C02 → returns s.opArg) ∧ (n = 0x1C03 → returns 0x00#8) ∧
    (n = 0x1C04 → returns s.errStatus) ∧ (n = 0x1C05 → returns s.errInfo) ∧
    (n = 0x1C06 → returns s.sticky)

/-- R34: what a host write does at every mapped address. -/
def Obligations.HostWriteFollowsMap : Prop :=
  ∀ (s : State) (addr : Addr) (v : Byte) (n : Nat), n = addr.toNat →
    (n < 0x1800 → ∃ t : State, perform (.memWrite addr v) s = .next t ∧ t = { s with pix := t.pix } ∧
      t.pixByte n = v ∧ ∀ a, a ≠ n → t.pixByte a = s.pixByte a) ∧
    (n = 0x1C00 → perform (.memWrite addr v) s = .next { s with imgW := v }) ∧
    (n = 0x1C01 → perform (.memWrite addr v) s = .next { s with imgH := v }) ∧
    (n = 0x1C02 → perform (.memWrite addr v) s = .next { s with opArg := v }) ∧
    (n = 0x1C03 → ∀ i, decode (OpWord.ofBytes s.opArg v) = .ok i →
      perform (.memWrite addr v) s = exec i s) ∧
    (n = 0x1C03 → ∀ e, decode (OpWord.ofBytes s.opArg v) = .error e →
      perform (.memWrite addr v) s = .next (failed s 0x11#8 v 0x01#8)) ∧
    (0x1800 ≤ n → n < 0x1B00 → perform (.memWrite addr v) s = .refused (.readOnlyWrite addr)) ∧
    (n = 0x1C04 ∨ n = 0x1C05 ∨ n = 0x1C06 →
      perform (.memWrite addr v) s = .refused (.readOnlyWrite addr))

/-- R35: a host action is refused exactly when it is a read or write at an unmapped address or a
write to FB, ERR_STATUS, ERR_INFO or STICKY; every other action has a next state; and a run that comes
to a refused action is marked refused. -/
def Obligations.RefusedExactlyWhereTheMapSays : Prop :=
  ∀ (a : HostAction) (s : State),
    (RefusedByMap a ↔ ∃ r, perform a s = .refused r) ∧
    (¬ RefusedByMap a ↔ ∃ t : State, perform a s = .next t) ∧
    (RefusedByMap a → ∀ rest, (observe (a :: rest) s).refused = true)

/-- R35, R117: whether a run is marked refused depends on its host actions alone, not on the state it
starts from, and the mark is set exactly when one of them is refused by the map. -/
def Obligations.RunRefusedByItsActionsAlone : Prop :=
  ∀ (actions : List HostAction) (s : State),
    (observe actions s).refused = true ↔ ∃ a ∈ actions, RefusedByMap a

/-- R41(a): a read returns the last value written to its address, and a write to one address changes
what a read returns at no other. -/
def Obligations.ReadReturnsLastWrite : Prop :=
  ∀ (s : State) (addr : Addr) (v : Byte),
    addr.toNat < 0x1800 ∨ (0x1C00 ≤ addr.toNat ∧ addr.toNat ≤ 0x1C02) →
    ∃ t : State, perform (.memWrite addr v) s = .next t ∧
      perform (.memRead addr) t = .next { t with readLog := t.readLog ++ [v] } ∧
      ∀ (other : Addr) (w : Byte), other ≠ addr →
        perform (.memRead other) s = .next { s with readLog := s.readLog ++ [w] } →
        perform (.memRead other) t = .next { t with readLog := t.readLog ++ [w] }

/-- R40(b): writing the same value twice to PIX, IMG_W, IMG_H or OP_ARG leaves the state writing it
once would. -/
def Obligations.HostWritesAreIdempotent : Prop :=
  ∀ (s : State) (addr : Addr) (v : Byte), Memory.wf 6144 s.pix →
    addr.toNat < 0x1800 ∨ (0x1C00 ≤ addr.toNat ∧ addr.toNat ≤ 0x1C02) →
    ∃ t : State, perform (.memWrite addr v) s = .next t ∧ perform (.memWrite addr v) t = .next t

/-- R25: OUT only grows, only by issued operations, and is empty after Reset. -/
def Obligations.OutOnlyGrowsByOperations : Prop :=
  ∀ (a : HostAction) (s t : State), perform a s = .next t →
    (a = .reset → t.out = []) ∧
    (a ≠ .reset → ∃ new, t.out = s.out ++ new ∧ (isIssue a = false → new = []))

/-- R18, R30: no host action but an operation or a Reset changes FB, and an operation leaves FB as it
was or writes all 768 bytes of it. -/
def Obligations.FramebufferChangesWhole : Prop :=
  ∀ (a : HostAction) (s t : State), perform a s = .next t → a ≠ .reset →
    t.fb = s.fb ∨ (isIssue a = true ∧ ∀ i, i < 768 → ∃ b, Memory.lookup t.fb i = some b)

/-- R28: the parameter P_BRACKET_CLEAR_FILL never changes, whatever the host does. -/
def Obligations.ParameterNeverChanges : Prop :=
  ∀ s t : State, step s = .next t → t.bracketClearFill = s.bracketClearFill

/-- R54: the host actions of a mnemonic run its operation with its operand in OP_ARG; those without an
operand leave OP_ARG alone. -/
def Obligations.MnemonicExpansionRunsOperation : Prop :=
  ∀ (s : State) (i : Instr) (rest : List HostAction), s.hostActions = mnemonicActions i ++ rest →
    (∀ arg, (i = .selectPage arg ∨ i = .selectColumn arg) →
      ∃ t : State, step s = .next t ∧ step t = exec i { s with opArg := arg, hostActions := rest }) ∧
    ((i = .encode ∨ i = .showImage ∨ i = .clear ∨ i = .fill) →
      step s = exec i { s with hostActions := rest })

/-- R54: SET_DIMS, PIXEL and FILLPIX, run as the host actions they expand to. -/
def Obligations.PseudoOperationsWriteWhatTheySay : Prop :=
  (∀ (s : State) (w h : Byte),
    runActions (setDimsActions w h) s = ({ s with imgW := w, imgH := h }, false)) ∧
  (∀ (s : State) (r c : Nat) (v : Byte), r < 48 → c < 128 → ∃ t : State,
    runActions (pixelActions r c v) s = (t, false) ∧ t = { s with pix := t.pix } ∧
      t.pixByte (r * 128 + c) = v ∧ ∀ a, a ≠ r * 128 + c → t.pixByte a = s.pixByte a) ∧
  (∀ (s : State) (v : Byte), ∃ t : State, runActions (fillPixActions v) s = (t, false) ∧
    t = { s with pix := t.pix } ∧ PixWritten (fun _ => v) t)

/-! ### The invariant -/

/-- The state after reset meets the invariant. -/
def Obligations.ResetMeetsInvariant : Prop := Inv State.reset

/-- Every step keeps the invariant, from every state that meets it: the stores stay canonical, FB is
written wholly or not at all, ERR_STATUS, ERR_INFO and STICKY stay legal and agree, only emittable
transactions are in OUT, and TRANSPORT_SEEN holds exactly when OUT has a faulted transaction (R15,
R22, R24, R30, R60 to R62, R94, R96, R102). -/
def Obligations.StepKeepsInvariant : Prop :=
  ∀ s t : State, Inv s → step s = .next t → Inv t
end

