-- ==== Sys2Proof/Laws/Memory.lean ====
section
/-! SUPPORT. The stores: read after write, the canonical form, and full framebuffers. -/

namespace Sys2Proof.Machine

/-! ### Read after write -/

theorem Memory.lookup_write_same (m : Memory) (a : Nat) (v : Byte) :
    Memory.lookup (Memory.write m a v) a = some v := by
  induction m with
  | nil => simp [Memory.write, Memory.lookup]
  | cons x rest ih =>
    obtain ⟨k, w⟩ := x
    by_cases h1 : a < k
    · simp [Memory.write, Memory.lookup, h1]
    · by_cases h2 : a = k
      · simp [Memory.write, Memory.lookup, h2]
      · have h3 : ¬ k = a := fun h => h2 h.symm
        simp [Memory.write, Memory.lookup, h1, h2, h3, ih]

theorem Memory.lookup_write_other (m : Memory) {a b : Nat} (v : Byte) (h : b ≠ a) :
    Memory.lookup (Memory.write m a v) b = Memory.lookup m b := by
  have h' : ¬ a = b := fun e => h e.symm
  induction m with
  | nil => simp [Memory.write, Memory.lookup, h']
  | cons x rest ih =>
    obtain ⟨k, w⟩ := x
    by_cases h1 : a < k
    · simp [Memory.write, Memory.lookup, h1, h']
    · by_cases h2 : a = k
      · subst h2
        simp [Memory.write, Memory.lookup, h']
      · by_cases h3 : k = b
        · subst h3; simp [Memory.write, Memory.lookup, h1, h']
        · simp [Memory.write, Memory.lookup, h1, h2, h3, ih]

/-- Read after write, both cases. -/
theorem Memory.lookup_write (m : Memory) (a b : Nat) (v : Byte) :
    Memory.lookup (Memory.write m a v) b = if b = a then some v else Memory.lookup m b := by
  split
  · next h => rw [h, Memory.lookup_write_same]
  · next h => exact Memory.lookup_write_other m v h

/-! ### The canonical form -/

theorem Memory.mem_write {m : Memory} {a : Nat} {v : Byte} {x : Host.Cell}
    (h : x ∈ Memory.write m a v) : x = (a, v) ∨ x ∈ m := by
  induction m with
  | nil => simpa [Memory.write] using h
  | cons y rest ih =>
    obtain ⟨k, w⟩ := y
    simp only [Memory.write] at h
    split at h
    · simpa using h
    · split at h
      · rcases List.mem_cons.1 h with h | h
        · exact .inl h
        · exact .inr (List.mem_cons_of_mem _ h)
      · rcases List.mem_cons.1 h with h | h
        · exact .inr (by simp [h])
        · rcases ih h with h | h
          · exact .inl h
          · exact .inr (List.mem_cons_of_mem _ h)

/-- A write within the store keeps the canonical form. -/
theorem Memory.write_wf {size : Nat} {m : Memory} {a : Nat} (v : Byte) (hm : Memory.wf size m)
    (ha : a < size) : Memory.wf size (Memory.write m a v) := by
  refine ⟨?_, ?_⟩
  · have hp := hm.1
    clear hm
    induction m with
    | nil => simp [Memory.write]
    | cons y rest ih =>
      obtain ⟨k, w⟩ := y
      obtain ⟨hk, hr⟩ := List.pairwise_cons.1 hp
      simp only [Memory.write]
      split
      · next h1 =>
        refine List.pairwise_cons.2 ⟨?_, hp⟩
        intro z hz
        rcases List.mem_cons.1 hz with hz | hz
        · simpa [hz] using h1
        · exact Nat.lt_trans h1 (hk z hz)
      · split
        · next h2 => exact List.pairwise_cons.2 ⟨fun z hz => by simpa [h2] using hk z hz, hr⟩
        · next h1 h2 =>
          refine List.pairwise_cons.2 ⟨?_, ih hr⟩
          intro z hz
          rcases Memory.mem_write hz with hz | hz
          · subst hz; show k < a; omega
          · exact hk z hz
  · intro x hx
    rcases Memory.mem_write hx with h | h
    · simpa [h] using ha
    · exact hm.2 x h

theorem Memory.nil_wf (size : Nat) : Memory.wf size [] := by simp [Memory.wf]

theorem Memory.lookup_eq_none_of_lt {m : Memory} {a : Nat} (h : ∀ x ∈ m, a < x.1) :
    Memory.lookup m a = none := by
  induction m with
  | nil => rfl
  | cons y rest ih =>
    have hy : ¬ y.1 = a := Nat.ne_of_gt (h y (by simp))
    simp only [Memory.lookup, hy, if_false]
    exact ih fun x hx => h x (List.mem_cons_of_mem _ hx)

/-- Equal memories are equal data: two stores in canonical form that read alike are the same list. -/
theorem Memory.ext_of_wf {size : Nat} {m n : Memory} (hm : Memory.wf size m) (hn : Memory.wf size n)
    (h : ∀ a, Memory.lookup m a = Memory.lookup n a) : m = n := by
  have key : ∀ m n : Memory, m.Pairwise (fun x y => x.1 < y.1) →
      n.Pairwise (fun x y => x.1 < y.1) → (∀ a, Memory.lookup m a = Memory.lookup n a) → m = n := by
    intro m
    induction m with
    | nil =>
      intro n _ _ h
      cases n with
      | nil => rfl
      | cons y rest => simpa [Memory.lookup] using h y.1
    | cons x rest ih =>
      intro n hm hn h
      obtain ⟨k, v⟩ := x
      cases n with
      | nil => simpa [Memory.lookup] using h k
      | cons y rest' =>
        obtain ⟨k', v'⟩ := y
        obtain ⟨hk, hr⟩ := List.pairwise_cons.1 hm
        obtain ⟨hk', hr'⟩ := List.pairwise_cons.1 hn
        have hkk : k = k' := by
          rcases Nat.lt_trichotomy k k' with hlt | heq | hgt
          · have h1 := h k
            have h2 : Memory.lookup ((k', v') :: rest') k = none :=
              Memory.lookup_eq_none_of_lt fun z hz => by
                rcases List.mem_cons.1 hz with hz | hz
                · simpa [hz] using hlt
                · exact Nat.lt_trans hlt (hk' z hz)
            rw [h2] at h1
            simp [Memory.lookup] at h1
          · exact heq
          · have h1 := h k'
            have h2 : Memory.lookup ((k, v) :: rest) k' = none :=
              Memory.lookup_eq_none_of_lt fun z hz => by
                rcases List.mem_cons.1 hz with hz | hz
                · simpa [hz] using hgt
                · exact Nat.lt_trans hgt (hk z hz)
            rw [h2] at h1
            simp [Memory.lookup] at h1
        subst hkk
        have hvv : v = v' := by simpa [Memory.lookup] using h k
        subst hvv
        congr 1
        refine ih rest' hr hr' fun a => ?_
        by_cases ha : k = a
        · subst ha
          rw [Memory.lookup_eq_none_of_lt hk, Memory.lookup_eq_none_of_lt hk']
        · simpa [Memory.lookup, ha] using h a
  exact key m n hm.1 hn.1 h

/-- Writing the same byte twice is writing it once. -/
theorem Memory.write_write_same {size : Nat} {m : Memory} {a : Nat} (v w : Byte)
    (hm : Memory.wf size m) (ha : a < size) :
    Memory.write (Memory.write m a v) a w = Memory.write m a w := by
  refine Memory.ext_of_wf (Memory.write_wf w (Memory.write_wf v hm ha) ha)
    (Memory.write_wf w hm ha) fun b => ?_
  simp only [Memory.lookup_write]
  split <;> rfl

/-! ### Bytes of PIX and FB -/

@[simp] theorem State.pixByte_writePix_same (s : State) (a : Nat) (v : Byte) :
    (s.writePix a v).pixByte a = v := by
  simp [State.pixByte, State.writePix, Memory.lookup_write_same]

theorem State.pixByte_writePix_other (s : State) {a b : Nat} (v : Byte) (h : b ≠ a) :
    (s.writePix a v).pixByte b = s.pixByte b := by
  simp [State.pixByte, State.writePix, Memory.lookup_write_other _ _ h]

/-- The byte read depends on the store and the reset it was drawn at, and on nothing else. -/
theorem State.pixByte_congr {s t : State} (hp : t.pix = s.pix) (hc : t.resetCount = s.resetCount)
    (a : Nat) : t.pixByte a = s.pixByte a := by
  simp [State.pixByte, hp, hc]

theorem State.fbByte_congr {s t : State} (hf : t.fb = s.fb) (hc : t.resetCount = s.resetCount)
    (i : Nat) : t.fbByte i = s.fbByte i := by
  simp [State.fbByte, hf, hc]

/-! ### Full framebuffers -/

theorem Memory.lookup_map_range (f : Nat → Byte) (n a : Nat) :
    Memory.lookup ((List.range n).map fun i => (i, f i)) a = if a < n then some (f a) else none := by
  have key : ∀ l : List Nat, Memory.lookup (l.map fun i => (i, f i)) a =
      if a ∈ l then some (f a) else none := by
    intro l
    induction l with
    | nil => simp [Memory.lookup]
    | cons i rest ih =>
      by_cases h : i = a
      · subst h; simp [Memory.lookup]
      · have h' : ¬ a = i := fun e => h e.symm
        simp [Memory.lookup, h, h', ih]
  simpa using key (List.range n)

theorem fullFramebuffer_lookup (f : Nat → Byte) (i : Nat) :
    Memory.lookup (fullFramebuffer f) i = if i < 768 then some (f i) else none := by
  unfold fullFramebuffer
  exact Memory.lookup_map_range f 768 i

theorem Memory.map_range_wf (f : Nat → Byte) (n : Nat) :
    Memory.wf n ((List.range n).map fun i => (i, f i)) := by
  refine ⟨?_, ?_⟩
  · rw [List.pairwise_map]
    exact List.pairwise_lt_range
  · intro x hx
    obtain ⟨i, hi, rfl⟩ := List.mem_map.1 hx
    exact List.mem_range.1 hi

theorem fullFramebuffer_wf (f : Nat → Byte) : Memory.wf 768 (fullFramebuffer f) := by
  unfold fullFramebuffer
  exact Memory.map_range_wf f 768

/-- A full framebuffer is fixed by its 768 bytes. -/
theorem fullFramebuffer_congr {f g : Nat → Byte} (h : ∀ i, i < 768 → f i = g i) :
    fullFramebuffer f = fullFramebuffer g := by
  refine Memory.ext_of_wf (fullFramebuffer_wf f) (fullFramebuffer_wf g) fun i => ?_
  simp only [fullFramebuffer_lookup]
  split
  · next hi => rw [h i hi]
  · rfl

theorem State.fbByte_of_full {s : State} {f : Nat → Byte} (h : s.fb = fullFramebuffer f) {i : Nat}
    (hi : i < 768) : s.fbByte i = f i := by
  simp [State.fbByte, h, fullFramebuffer_lookup, hi]

end Sys2Proof.Machine
end

