-- ==== Sys2Proof/Laws/State.lean ====
section
/-! SUPPORT. One lemma per field per update of State, each true by unfolding the update. -/

namespace Sys2Proof.Machine

/-! ### The fixed parameters -/

@[simp] theorem Config.width_eq : Config.width = 128 := rfl

@[simp] theorem Config.pageCount_eq : Config.pageCount = 6 := rfl

@[simp] theorem Config.pageRows_eq : Config.pageRows = 8 := rfl

@[simp] theorem Config.fbSize_eq : Config.fbSize = 768 := rfl

@[simp] theorem Config.pixSize_eq : Config.pixSize = 6144 := rfl

@[simp] theorem Config.threshold_eq : Config.threshold = 128 := rfl

@[simp] theorem Config.maxPage_eq : Config.maxPage = 5 := rfl

@[simp] theorem Config.maxColumn_eq : Config.maxColumn = 127 := rfl

variable (s : State)

/-! ### `writePix` -/

@[simp] theorem State.writePix_pix (a : Nat) (v : Byte) :
    (s.writePix a v).pix = Memory.write s.pix a v := rfl

@[simp] theorem State.writePix_fb (a : Nat) (v : Byte) :
    (s.writePix a v).fb = s.fb := rfl

@[simp] theorem State.writePix_imgW (a : Nat) (v : Byte) :
    (s.writePix a v).imgW = s.imgW := rfl

@[simp] theorem State.writePix_imgH (a : Nat) (v : Byte) :
    (s.writePix a v).imgH = s.imgH := rfl

@[simp] theorem State.writePix_opArg (a : Nat) (v : Byte) :
    (s.writePix a v).opArg = s.opArg := rfl

@[simp] theorem State.writePix_errStatus (a : Nat) (v : Byte) :
    (s.writePix a v).errStatus = s.errStatus := rfl

@[simp] theorem State.writePix_errInfo (a : Nat) (v : Byte) :
    (s.writePix a v).errInfo = s.errInfo := rfl

@[simp] theorem State.writePix_sticky (a : Nat) (v : Byte) :
    (s.writePix a v).sticky = s.sticky := rfl

@[simp] theorem State.writePix_out (a : Nat) (v : Byte) :
    (s.writePix a v).out = s.out := rfl

@[simp] theorem State.writePix_bracketClearFill (a : Nat) (v : Byte) :
    (s.writePix a v).bracketClearFill = s.bracketClearFill := rfl

@[simp] theorem State.writePix_sinkAnswers (a : Nat) (v : Byte) :
    (s.writePix a v).sinkAnswers = s.sinkAnswers := rfl

@[simp] theorem State.writePix_sinkDraws (a : Nat) (v : Byte) :
    (s.writePix a v).sinkDraws = s.sinkDraws := rfl

@[simp] theorem State.writePix_resetCount (a : Nat) (v : Byte) :
    (s.writePix a v).resetCount = s.resetCount := rfl

@[simp] theorem State.writePix_hostActions (a : Nat) (v : Byte) :
    (s.writePix a v).hostActions = s.hostActions := rfl

@[simp] theorem State.writePix_readLog (a : Nat) (v : Byte) :
    (s.writePix a v).readLog = s.readLog := rfl

/-! ### `setFb` -/

@[simp] theorem State.setFb_pix (m : Memory) :
    (s.setFb m).pix = s.pix := rfl

@[simp] theorem State.setFb_fb (m : Memory) :
    (s.setFb m).fb = m := rfl

@[simp] theorem State.setFb_imgW (m : Memory) :
    (s.setFb m).imgW = s.imgW := rfl

@[simp] theorem State.setFb_imgH (m : Memory) :
    (s.setFb m).imgH = s.imgH := rfl

@[simp] theorem State.setFb_opArg (m : Memory) :
    (s.setFb m).opArg = s.opArg := rfl

@[simp] theorem State.setFb_errStatus (m : Memory) :
    (s.setFb m).errStatus = s.errStatus := rfl

@[simp] theorem State.setFb_errInfo (m : Memory) :
    (s.setFb m).errInfo = s.errInfo := rfl

@[simp] theorem State.setFb_sticky (m : Memory) :
    (s.setFb m).sticky = s.sticky := rfl

@[simp] theorem State.setFb_out (m : Memory) :
    (s.setFb m).out = s.out := rfl

@[simp] theorem State.setFb_bracketClearFill (m : Memory) :
    (s.setFb m).bracketClearFill = s.bracketClearFill := rfl

@[simp] theorem State.setFb_sinkAnswers (m : Memory) :
    (s.setFb m).sinkAnswers = s.sinkAnswers := rfl

@[simp] theorem State.setFb_sinkDraws (m : Memory) :
    (s.setFb m).sinkDraws = s.sinkDraws := rfl

@[simp] theorem State.setFb_resetCount (m : Memory) :
    (s.setFb m).resetCount = s.resetCount := rfl

@[simp] theorem State.setFb_hostActions (m : Memory) :
    (s.setFb m).hostActions = s.hostActions := rfl

@[simp] theorem State.setFb_readLog (m : Memory) :
    (s.setFb m).readLog = s.readLog := rfl

/-! ### `recordError` -/

@[simp] theorem State.recordError_pix (kind : ErrorKind) (cause : Cause) (info : Byte) :
    (s.recordError kind cause info).pix = s.pix := rfl

@[simp] theorem State.recordError_fb (kind : ErrorKind) (cause : Cause) (info : Byte) :
    (s.recordError kind cause info).fb = s.fb := rfl

@[simp] theorem State.recordError_imgW (kind : ErrorKind) (cause : Cause) (info : Byte) :
    (s.recordError kind cause info).imgW = s.imgW := rfl

@[simp] theorem State.recordError_imgH (kind : ErrorKind) (cause : Cause) (info : Byte) :
    (s.recordError kind cause info).imgH = s.imgH := rfl

@[simp] theorem State.recordError_opArg (kind : ErrorKind) (cause : Cause) (info : Byte) :
    (s.recordError kind cause info).opArg = s.opArg := rfl

@[simp] theorem State.recordError_errStatus (kind : ErrorKind) (cause : Cause) (info : Byte) :
    (s.recordError kind cause info).errStatus = errStatusByte kind cause := rfl

@[simp] theorem State.recordError_errInfo (kind : ErrorKind) (cause : Cause) (info : Byte) :
    (s.recordError kind cause info).errInfo = info := rfl

@[simp] theorem State.recordError_sticky (kind : ErrorKind) (cause : Cause) (info : Byte) :
    (s.recordError kind cause info).sticky = s.sticky ||| stickyFlag kind := rfl

@[simp] theorem State.recordError_out (kind : ErrorKind) (cause : Cause) (info : Byte) :
    (s.recordError kind cause info).out = s.out := rfl

@[simp] theorem State.recordError_bracketClearFill (kind : ErrorKind) (cause : Cause) (info : Byte) :
    (s.recordError kind cause info).bracketClearFill = s.bracketClearFill := rfl

@[simp] theorem State.recordError_sinkAnswers (kind : ErrorKind) (cause : Cause) (info : Byte) :
    (s.recordError kind cause info).sinkAnswers = s.sinkAnswers := rfl

@[simp] theorem State.recordError_sinkDraws (kind : ErrorKind) (cause : Cause) (info : Byte) :
    (s.recordError kind cause info).sinkDraws = s.sinkDraws := rfl

@[simp] theorem State.recordError_resetCount (kind : ErrorKind) (cause : Cause) (info : Byte) :
    (s.recordError kind cause info).resetCount = s.resetCount := rfl

@[simp] theorem State.recordError_hostActions (kind : ErrorKind) (cause : Cause) (info : Byte) :
    (s.recordError kind cause info).hostActions = s.hostActions := rfl

@[simp] theorem State.recordError_readLog (kind : ErrorKind) (cause : Cause) (info : Byte) :
    (s.recordError kind cause info).readLog = s.readLog := rfl

/-! ### `recordSuccess` -/

@[simp] theorem State.recordSuccess_pix :
    (s.recordSuccess).pix = s.pix := rfl

@[simp] theorem State.recordSuccess_fb :
    (s.recordSuccess).fb = s.fb := rfl

@[simp] theorem State.recordSuccess_imgW :
    (s.recordSuccess).imgW = s.imgW := rfl

@[simp] theorem State.recordSuccess_imgH :
    (s.recordSuccess).imgH = s.imgH := rfl

@[simp] theorem State.recordSuccess_opArg :
    (s.recordSuccess).opArg = s.opArg := rfl

@[simp] theorem State.recordSuccess_errStatus :
    (s.recordSuccess).errStatus = 0x00#8 := rfl

@[simp] theorem State.recordSuccess_errInfo :
    (s.recordSuccess).errInfo = 0x00#8 := rfl

@[simp] theorem State.recordSuccess_sticky :
    (s.recordSuccess).sticky = s.sticky := rfl

@[simp] theorem State.recordSuccess_out :
    (s.recordSuccess).out = s.out := rfl

@[simp] theorem State.recordSuccess_bracketClearFill :
    (s.recordSuccess).bracketClearFill = s.bracketClearFill := rfl

@[simp] theorem State.recordSuccess_sinkAnswers :
    (s.recordSuccess).sinkAnswers = s.sinkAnswers := rfl

@[simp] theorem State.recordSuccess_sinkDraws :
    (s.recordSuccess).sinkDraws = s.sinkDraws := rfl

@[simp] theorem State.recordSuccess_resetCount :
    (s.recordSuccess).resetCount = s.resetCount := rfl

@[simp] theorem State.recordSuccess_hostActions :
    (s.recordSuccess).hostActions = s.hostActions := rfl

@[simp] theorem State.recordSuccess_readLog :
    (s.recordSuccess).readLog = s.readLog := rfl

/-! ### `appendOut` -/

@[simp] theorem State.appendOut_pix (tx : Transaction) (o : SinkAnswer) :
    (s.appendOut tx o).pix = s.pix := rfl

@[simp] theorem State.appendOut_fb (tx : Transaction) (o : SinkAnswer) :
    (s.appendOut tx o).fb = s.fb := rfl

@[simp] theorem State.appendOut_imgW (tx : Transaction) (o : SinkAnswer) :
    (s.appendOut tx o).imgW = s.imgW := rfl

@[simp] theorem State.appendOut_imgH (tx : Transaction) (o : SinkAnswer) :
    (s.appendOut tx o).imgH = s.imgH := rfl

@[simp] theorem State.appendOut_opArg (tx : Transaction) (o : SinkAnswer) :
    (s.appendOut tx o).opArg = s.opArg := rfl

@[simp] theorem State.appendOut_errStatus (tx : Transaction) (o : SinkAnswer) :
    (s.appendOut tx o).errStatus = s.errStatus := rfl

@[simp] theorem State.appendOut_errInfo (tx : Transaction) (o : SinkAnswer) :
    (s.appendOut tx o).errInfo = s.errInfo := rfl

@[simp] theorem State.appendOut_sticky (tx : Transaction) (o : SinkAnswer) :
    (s.appendOut tx o).sticky = s.sticky := rfl

@[simp] theorem State.appendOut_out (tx : Transaction) (o : SinkAnswer) :
    (s.appendOut tx o).out = s.out ++ [(tx, o)] := rfl

@[simp] theorem State.appendOut_bracketClearFill (tx : Transaction) (o : SinkAnswer) :
    (s.appendOut tx o).bracketClearFill = s.bracketClearFill := rfl

@[simp] theorem State.appendOut_sinkAnswers (tx : Transaction) (o : SinkAnswer) :
    (s.appendOut tx o).sinkAnswers = s.sinkAnswers.tail := rfl

@[simp] theorem State.appendOut_sinkDraws (tx : Transaction) (o : SinkAnswer) :
    (s.appendOut tx o).sinkDraws = s.sinkDraws + 1 := rfl

@[simp] theorem State.appendOut_resetCount (tx : Transaction) (o : SinkAnswer) :
    (s.appendOut tx o).resetCount = s.resetCount := rfl

@[simp] theorem State.appendOut_hostActions (tx : Transaction) (o : SinkAnswer) :
    (s.appendOut tx o).hostActions = s.hostActions := rfl

@[simp] theorem State.appendOut_readLog (tx : Transaction) (o : SinkAnswer) :
    (s.appendOut tx o).readLog = s.readLog := rfl

/-! ### `encodeFB` -/

@[simp] theorem State.encodeFB_pix :
    (s.encodeFB).pix = s.pix := rfl

@[simp] theorem State.encodeFB_fb :
    (s.encodeFB).fb = fullFramebuffer fun i => s.pack (i / 128) (i % 128) := rfl

@[simp] theorem State.encodeFB_imgW :
    (s.encodeFB).imgW = s.imgW := rfl

@[simp] theorem State.encodeFB_imgH :
    (s.encodeFB).imgH = s.imgH := rfl

@[simp] theorem State.encodeFB_opArg :
    (s.encodeFB).opArg = s.opArg := rfl

@[simp] theorem State.encodeFB_errStatus :
    (s.encodeFB).errStatus = s.errStatus := rfl

@[simp] theorem State.encodeFB_errInfo :
    (s.encodeFB).errInfo = s.errInfo := rfl

@[simp] theorem State.encodeFB_sticky :
    (s.encodeFB).sticky = s.sticky := rfl

@[simp] theorem State.encodeFB_out :
    (s.encodeFB).out = s.out := rfl

@[simp] theorem State.encodeFB_bracketClearFill :
    (s.encodeFB).bracketClearFill = s.bracketClearFill := rfl

@[simp] theorem State.encodeFB_sinkAnswers :
    (s.encodeFB).sinkAnswers = s.sinkAnswers := rfl

@[simp] theorem State.encodeFB_sinkDraws :
    (s.encodeFB).sinkDraws = s.sinkDraws := rfl

@[simp] theorem State.encodeFB_resetCount :
    (s.encodeFB).resetCount = s.resetCount := rfl

@[simp] theorem State.encodeFB_hostActions :
    (s.encodeFB).hostActions = s.hostActions := rfl

@[simp] theorem State.encodeFB_readLog :
    (s.encodeFB).readLog = s.readLog := rfl

/-! ### `paintFB` -/

@[simp] theorem State.paintFB_pix (v : Byte) :
    (s.paintFB v).pix = s.pix := rfl

@[simp] theorem State.paintFB_fb (v : Byte) :
    (s.paintFB v).fb = fullFramebuffer fun _ => v := rfl

@[simp] theorem State.paintFB_imgW (v : Byte) :
    (s.paintFB v).imgW = s.imgW := rfl

@[simp] theorem State.paintFB_imgH (v : Byte) :
    (s.paintFB v).imgH = s.imgH := rfl

@[simp] theorem State.paintFB_opArg (v : Byte) :
    (s.paintFB v).opArg = s.opArg := rfl

@[simp] theorem State.paintFB_errStatus (v : Byte) :
    (s.paintFB v).errStatus = s.errStatus := rfl

@[simp] theorem State.paintFB_errInfo (v : Byte) :
    (s.paintFB v).errInfo = s.errInfo := rfl

@[simp] theorem State.paintFB_sticky (v : Byte) :
    (s.paintFB v).sticky = s.sticky := rfl

@[simp] theorem State.paintFB_out (v : Byte) :
    (s.paintFB v).out = s.out := rfl

@[simp] theorem State.paintFB_bracketClearFill (v : Byte) :
    (s.paintFB v).bracketClearFill = s.bracketClearFill := rfl

@[simp] theorem State.paintFB_sinkAnswers (v : Byte) :
    (s.paintFB v).sinkAnswers = s.sinkAnswers := rfl

@[simp] theorem State.paintFB_sinkDraws (v : Byte) :
    (s.paintFB v).sinkDraws = s.sinkDraws := rfl

@[simp] theorem State.paintFB_resetCount (v : Byte) :
    (s.paintFB v).resetCount = s.resetCount := rfl

@[simp] theorem State.paintFB_hostActions (v : Byte) :
    (s.paintFB v).hostActions = s.hostActions := rfl

@[simp] theorem State.paintFB_readLog (v : Byte) :
    (s.paintFB v).readLog = s.readLog := rfl

/-! ### `blockReset` -/

@[simp] theorem State.blockReset_pix :
    (s.blockReset).pix = [] := rfl

@[simp] theorem State.blockReset_fb :
    (s.blockReset).fb = [] := rfl

@[simp] theorem State.blockReset_imgW :
    (s.blockReset).imgW = 128#8 := rfl

@[simp] theorem State.blockReset_imgH :
    (s.blockReset).imgH = 48#8 := rfl

@[simp] theorem State.blockReset_opArg :
    (s.blockReset).opArg = 0x00#8 := rfl

@[simp] theorem State.blockReset_errStatus :
    (s.blockReset).errStatus = 0x00#8 := rfl

@[simp] theorem State.blockReset_errInfo :
    (s.blockReset).errInfo = 0x00#8 := rfl

@[simp] theorem State.blockReset_sticky :
    (s.blockReset).sticky = 0x00#8 := rfl

@[simp] theorem State.blockReset_out :
    (s.blockReset).out = [] := rfl

@[simp] theorem State.blockReset_bracketClearFill :
    (s.blockReset).bracketClearFill = s.bracketClearFill := rfl

@[simp] theorem State.blockReset_sinkAnswers :
    (s.blockReset).sinkAnswers = s.sinkAnswers := rfl

@[simp] theorem State.blockReset_sinkDraws :
    (s.blockReset).sinkDraws = s.sinkDraws := rfl

@[simp] theorem State.blockReset_resetCount :
    (s.blockReset).resetCount = s.resetCount + 1 := rfl

@[simp] theorem State.blockReset_hostActions :
    (s.blockReset).hostActions = s.hostActions := rfl

@[simp] theorem State.blockReset_readLog :
    (s.blockReset).readLog = s.readLog := rfl

end Sys2Proof.Machine
end

