-- ==== Sys2Proof/Laws/Sending.lean ====
section
/-! SUPPORT. What sending transactions can do, said once: one Emit, a list of Emits, the page stream. -/

namespace Sys2Proof.Machine

open Sys2Proof.Safety

/-! ### The sink's answers -/

theorem State.answerAt_congr {s t : State} (ha : t.sinkAnswers = s.sinkAnswers)
    (hd : t.sinkDraws = s.sinkDraws) (j : Nat) (tx : Transaction) :
    t.answerAt j tx = s.answerAt j tx := by
  simp [State.answerAt, ha, hd]

/-- After one transaction the sink's next answer is the one that stood second. -/
@[simp] theorem State.answerAt_appendOut (s : State) (tx tx' : Transaction) (o : SinkAnswer) (j : Nat) :
    (s.appendOut tx o).answerAt j tx' = s.answerAt (j + 1) tx' := by
  simp [State.answerAt, Nat.add_assoc, Nat.add_comm 1 j]

/-- Either every transaction is answered ok, or there is a first one answered fault. -/
theorem allOk_or_firstFault (s : State) (txs : List Transaction) :
    AllOk s txs ∨ ∃ k tx, FirstFault s txs k tx := by
  induction txs generalizing s with
  | nil => left; intro j tx h; simp at h
  | cons tx rest ih =>
    cases ha : s.answerAt 0 tx with
    | fault => exact .inr ⟨0, tx, rfl, ha, fun j _ hj => absurd hj (Nat.not_lt_zero j)⟩
    | ok =>
      rcases ih (s.appendOut tx .ok) with h | ⟨k, tx', hk, hf, hpre⟩
      · left
        intro j tx' hj
        cases j with
        | zero => simp at hj; subst hj; exact ha
        | succ j => simpa using h j tx' (by simpa using hj)
      · right
        refine ⟨k + 1, tx', by simpa using hk, by simpa using hf, ?_⟩
        intro j tx'' hj htx
        cases j with
        | zero => simp at htx; subst htx; exact ha
        | succ j => simpa using hpre j tx'' (by omega) (by simpa using htx)

/-- The two cases exclude each other. -/
theorem not_allOk_of_firstFault {s : State} {txs : List Transaction} {k : Nat} {tx : Transaction}
    (h : FirstFault s txs k tx) : ¬ AllOk s txs := by
  intro ha
  have h1 := ha k tx h.1
  rw [h.2.1] at h1
  cases h1

theorem firstFault_lt {s : State} {txs : List Transaction} {k : Nat} {tx : Transaction}
    (h : FirstFault s txs k tx) : k < txs.length := by
  have h1 := h.1
  rw [List.getElem?_eq_some_iff] at h1
  exact h1.1

/-- Answers queued as plain data: a plan no longer than the queued `ok`s is all answered ok. -/
theorem allOk_of_queue {s : State} {n : Nat} {rest : List SinkAnswer}
    (hq : s.sinkAnswers = List.replicate n .ok ++ rest) {txs : List Transaction}
    (hn : txs.length ≤ n) : AllOk s txs := by
  intro j tx hj
  have hlt : j < n := by
    have := (List.getElem?_eq_some_iff.1 hj).1
    omega
  simp [State.answerAt, hq, List.getElem?_append_left, hlt]

/-- Answers queued as plain data: k times `ok` and then `fault` make the k-th the first fault. -/
theorem firstFault_of_queue {s : State} {k : Nat} {rest : List SinkAnswer}
    (hq : s.sinkAnswers = List.replicate k .ok ++ .fault :: rest) {txs : List Transaction}
    {tx : Transaction} (hk : txs[k]? = some tx) : FirstFault s txs k tx := by
  refine ⟨hk, by simp [State.answerAt, hq], ?_⟩
  intro j tx' hj _
  simp [State.answerAt, hq, List.getElem?_append_left, hj]

/-! ### One Emit -/

@[simp] theorem Progress.andThen_running (s : State) (k : Byte) (f : State → Byte → Progress) :
    (Progress.running s k).andThen f = f s k := rfl

@[simp] theorem Progress.andThen_ended (s : State) (f : State → Byte → Progress) :
    (Progress.ended s).andThen f = .ended s := rfl

@[simp] theorem Progress.emitFrom_ended (s : State) (f : State → Transaction) :
    (Progress.ended s).emitFrom f = .ended s := rfl

@[simp] theorem Progress.emitCmd_ended (s : State) (b : Byte) :
    (Progress.ended s).emitCmd b = .ended s := rfl

@[simp] theorem Progress.emitPage_ended (s : State) (p : Nat) :
    (Progress.ended s).emitPage p = .ended s := rfl

@[simp] theorem Progress.write_running (s : State) (k : Byte) (f : State → State) :
    (Progress.running s k).write f = .running (f s) k := rfl

@[simp] theorem Progress.write_ended (s : State) (f : State → State) :
    (Progress.ended s).write f = .ended s := rfl

@[simp] theorem Progress.complete_running (s : State) (k : Byte) :
    (Progress.running s k).complete = s.recordSuccess := rfl

@[simp] theorem Progress.complete_ended (s : State) : (Progress.ended s).complete = s := rfl

/-- An Emit the sink answers ok. -/
theorem Progress.emitFrom_ok {s : State} {f : State → Transaction} (k : Byte)
    (h : s.answerAt 0 (f s) = .ok) :
    (Progress.running s k).emitFrom f = .running (s.appendOut (f s) .ok) (k + 1#8) := by
  simp [Progress.emitFrom, h]

/-- An Emit the sink answers fault. -/
theorem Progress.emitFrom_fault {s : State} {f : State → Transaction} (k : Byte)
    (h : s.answerAt 0 (f s) = .fault) :
    (Progress.running s k).emitFrom f =
      .ended ((s.appendOut (f s) .fault).recordError .transportFault .transport k) := by
  simp [Progress.emitFrom, h, raiseError]

/-! ### A list of Emits -/

/-- Emit each transaction of a list in order (R65). -/
def Progress.emitAll (g : Progress) (txs : List Transaction) : Progress :=
  txs.foldl (fun g tx => g.emitFrom fun _ => tx) g

@[simp] theorem Progress.emitAll_nil (g : Progress) : g.emitAll [] = g := rfl

theorem Progress.emitAll_cons (g : Progress) (tx : Transaction) (txs : List Transaction) :
    g.emitAll (tx :: txs) = (g.emitFrom fun _ => tx).emitAll txs := rfl

theorem Progress.emitAll_append (g : Progress) (xs ys : List Transaction) :
    g.emitAll (xs ++ ys) = (g.emitAll xs).emitAll ys := by
  simp [Progress.emitAll, List.foldl_append]

@[simp] theorem Progress.emitAll_ended (s : State) (txs : List Transaction) :
    (Progress.ended s).emitAll txs = .ended s := by
  induction txs with
  | nil => rfl
  | cons tx rest ih => rw [Progress.emitAll_cons, Progress.emitFrom_ended, ih]

theorem Progress.emitCmd_eq_emitAll (g : Progress) (b : Byte) : g.emitCmd b = g.emitAll [.cmd b] := rfl

@[simp] theorem sent_nil (s : State) : sent s [] = s := by simp [sent]

theorem sent_cons (s : State) (tx : Transaction) (txs : List Transaction) :
    sent s (tx :: txs) = sent (s.appendOut tx .ok) txs := by
  simp [sent, State.appendOut, Nat.add_comm, Nat.add_left_comm]

theorem sentThenFault_cons (s : State) (tx' tx : Transaction) (txs : List Transaction) :
    sentThenFault s (tx' :: txs) tx = sentThenFault (s.appendOut tx' .ok) txs tx := by
  simp [sentThenFault, State.appendOut, Nat.add_comm, Nat.add_left_comm]

theorem allOk_tail {s : State} {tx : Transaction} {txs : List Transaction}
    (h : AllOk s (tx :: txs)) : AllOk (s.appendOut tx .ok) txs := by
  intro j tx' hj
  simpa using h (j + 1) tx' (by simpa using hj)

theorem firstFault_tail {s : State} {tx tx' : Transaction} {txs : List Transaction} {k : Nat}
    (h : FirstFault s (tx' :: txs) (k + 1) tx) : FirstFault (s.appendOut tx' .ok) txs k tx := by
  obtain ⟨hk, hf, hpre⟩ := h
  refine ⟨by simpa using hk, by simpa using hf, ?_⟩
  intro j tx'' hj htx
  simpa using hpre (j + 1) tx'' (by omega) (by simpa using htx)

/-- Emits that the sink all answers ok: OUT holds them in order and k has counted them. -/
theorem Progress.emitAll_ok {s : State} {txs : List Transaction} (k : Byte) (h : AllOk s txs) :
    (Progress.running s k).emitAll txs = .running (sent s txs) (k + BitVec.ofNat 8 txs.length) := by
  induction txs generalizing s k with
  | nil => simp
  | cons tx rest ih =>
    have h0 : s.answerAt 0 tx = .ok := h 0 tx rfl
    rw [Progress.emitAll_cons, Progress.emitFrom_ok k h0, ih _ (allOk_tail h), sent_cons]
    congr 1
    rw [List.length_cons, Nat.add_comm rest.length 1, BitVec.add_assoc, ← BitVec.ofNat_add]

/-- Emits of which the n-th is the first the sink answers fault: the operation ends there, with k in
ERR_INFO, and nothing after it is emitted. -/
theorem Progress.emitAll_fault {s : State} {txs : List Transaction} {n : Nat} {tx : Transaction}
    (k : Byte) (h : FirstFault s txs n tx) :
    (Progress.running s k).emitAll txs =
      .ended ((sentThenFault s (txs.take n) tx).recordError .transportFault .transport
        (k + BitVec.ofNat 8 n)) := by
  induction txs generalizing s k n with
  | nil => have := h.1; simp at this
  | cons tx' rest ih =>
    cases n with
    | zero =>
      have h1 : tx' = tx := by simpa using h.1
      subst h1
      rw [Progress.emitAll_cons, Progress.emitFrom_fault k h.2.1, Progress.emitAll_ended]
      simp [sentThenFault, State.appendOut]
    | succ n =>
      have h0 : s.answerAt 0 tx' = .ok := h.2.2 0 tx' (Nat.succ_pos n) rfl
      rw [Progress.emitAll_cons, Progress.emitFrom_ok k h0, ih _ (firstFault_tail h),
        List.take_succ_cons, sentThenFault_cons, Nat.add_comm n 1, BitVec.add_assoc,
        ← BitVec.ofNat_add]

/-! ### The page stream -/

/-- The framebuffer the operation would read if it went on reads as `fb`. -/
def Progress.FbIs (g : Progress) (fb : Nat → Byte) : Prop :=
  ∀ s k, g = .running s k → ∀ i, i < 768 → s.fbByte i = fb i

theorem Progress.fbIs_emitFrom {g : Progress} {fb : Nat → Byte} (f : State → Transaction)
    (h : g.FbIs fb) : (g.emitFrom f).FbIs fb := by
  cases g with
  | ended s => intro t k ht; simp at ht
  | running s k =>
    intro t k' ht i hi
    cases ha : s.answerAt 0 (f s) with
    | fault => rw [Progress.emitFrom_fault k ha] at ht; cases ht
    | ok =>
      rw [Progress.emitFrom_ok k ha] at ht
      injection ht with ht _
      subst ht
      exact (State.fbByte_congr (by simp) (by simp) i).trans (h s k rfl i hi)

theorem Progress.fbIs_emitAll {g : Progress} {fb : Nat → Byte} (txs : List Transaction)
    (h : g.FbIs fb) : (g.emitAll txs).FbIs fb := by
  induction txs generalizing g with
  | nil => exact h
  | cons tx rest ih => exact ih (Progress.fbIs_emitFrom _ h)

theorem fbPage_eq_pageBytes {s : State} {fb : Nat → Byte} {p : Nat} (hp : p < 6)
    (h : ∀ i, i < 768 → s.fbByte i = fb i) : s.fbPage p = pageBytes fb p := by
  simp only [State.fbPage, pageBytes]
  refine List.map_congr_left fun c hc => ?_
  have hc' : c < 128 := List.mem_range.1 hc
  rw [show p * Config.width + c = 128 * p + c from by simp only [Config.width]; omega]
  exact h _ (by omega)

theorem Progress.emitPage_eq_emitAll {g : Progress} {fb : Nat → Byte} {p : Nat} (hp : p < 6)
    (h : g.FbIs fb) : g.emitPage p = g.emitAll [.data (pageBytes fb p)] := by
  cases g with
  | ended s => rfl
  | running s k =>
    have hpage := fbPage_eq_pageBytes hp (h s k rfl)
    simp [Progress.emitPage, Progress.emitAll, Progress.emitFrom, hpage]

/-- The four transactions of one page (R82). -/
def pagePlan (fb : Nat → Byte) (p : Nat) : List Transaction :=
  [.cmd (BitVec.ofNat 8 (0xB0 + p)), .cmd 0x00#8, .cmd 0x10#8, .data (pageBytes fb p)]

theorem Progress.streamPage_eq_emitAll {g : Progress} {fb : Nat → Byte} {p : Nat} (hp : p < 6)
    (h : g.FbIs fb) : g.streamPage p = g.emitAll (pagePlan fb p) := by
  have hb : pageSelectByte (BitVec.ofNat 16 p) = BitVec.ofNat 8 (0xB0 + p) := by
    interval_cases p <;> decide
  have h3 : (g.emitAll [.cmd (BitVec.ofNat 8 (0xB0 + p)), .cmd 0x00#8, .cmd 0x10#8]).FbIs fb :=
    Progress.fbIs_emitAll _ h
  show (((g.emitCmd (pageSelectByte (BitVec.ofNat 16 p))).emitCmd 0x00#8).emitCmd 0x10#8).emitPage p
    = _
  rw [hb]
  exact Progress.emitPage_eq_emitAll hp h3

theorem streamPlan_eq (fb : Nat → Byte) :
    streamPlan fb = pagePlan fb 0 ++ pagePlan fb 1 ++ pagePlan fb 2 ++ pagePlan fb 3 ++
      pagePlan fb 4 ++ pagePlan fb 5 := by
  simp [streamPlan, pagePlan, streamTx, List.range, List.range.loop]

@[simp] theorem streamPlan_length (fb : Nat → Byte) : (streamPlan fb).length = 24 := by
  simp [streamPlan]

theorem range_768_by_pages : List.range 768 =
    (List.range 128).map (128 * 0 + ·) ++ (List.range 128).map (128 * 1 + ·) ++
      (List.range 128).map (128 * 2 + ·) ++ (List.range 128).map (128 * 3 + ·) ++
      (List.range 128).map (128 * 4 + ·) ++ (List.range 128).map (128 * 5 + ·) := by
  decide +kernel

theorem payload_pagePlan (fb : Nat → Byte) (p : Nat) :
    (pagePlan fb p).flatMap payload = ((List.range 128).map (128 * p + ·)).map fb := by
  simp [pagePlan, payload, pageBytes]

/-- The payload of a page stream is the framebuffer, in order (R37, R62). -/
theorem payload_streamPlan (fb : Nat → Byte) :
    (streamPlan fb).flatMap payload = (List.range 768).map fb := by
  rw [streamPlan_eq, range_768_by_pages]
  simp only [List.flatMap_append, List.map_append, payload_pagePlan]

theorem payload_bracketedPlan (fb : Nat → Byte) :
    (bracketedPlan fb).flatMap payload = (List.range 768).map fb := by
  rw [bracketedPlan, List.flatMap_append, List.flatMap_append, payload_streamPlan]
  simp [payload]

/-- The page stream is the 24 transactions of its plan, emitted in order (R82, R83). -/
theorem Progress.pageStream_eq_emitAll {g : Progress} {fb : Nat → Byte} (h : g.FbIs fb) :
    g.pageStream = g.emitAll (streamPlan fb) := by
  have step : ∀ (xs : List Transaction) (p : Nat), p < 6 →
      (g.emitAll xs).streamPage p = g.emitAll (xs ++ pagePlan fb p) := by
    intro xs p hp
    rw [Progress.streamPage_eq_emitAll hp (Progress.fbIs_emitAll xs h), Progress.emitAll_append]
  have h0 : g.streamPage 0 = g.emitAll (pagePlan fb 0) :=
    Progress.streamPage_eq_emitAll (by decide) h
  show (((((g.streamPage 0).streamPage 1).streamPage 2).streamPage 3).streamPage 4).streamPage 5 = _
  rw [h0, step _ 1 (by decide), step _ 2 (by decide), step _ 3 (by decide), step _ 4 (by decide),
    step _ 5 (by decide), streamPlan_eq]

/-! ### A framebuffer write inside an operation -/

/-- A state write that touches FB alone does not change what the sink answers. -/
@[simp] theorem State.answerAt_setFb (s : State) (m : Memory) (j : Nat) (tx : Transaction) :
    (s.setFb m).answerAt j tx = s.answerAt j tx := rfl

theorem fbIs_full {s : State} {f : Nat → Byte} {k : Byte} :
    (Progress.running (s.setFb (fullFramebuffer f)) k).FbIs f := by
  intro t k' ht i hi
  injection ht with ht _
  subst ht
  exact State.fbByte_of_full rfl hi

/-- A framebuffer written whole and streamed, without a bracket: what the operation leaves, for every
sink (R82, R88, R102). -/
theorem complete_stream_ok {s : State} {f : Nat → Byte} (h : AllOk s (streamPlan f)) :
    ((Progress.running (s.setFb (fullFramebuffer f)) 0#8).pageStream).complete =
      succeeded (sent (s.setFb (fullFramebuffer f)) (streamPlan f)) := by
  have h' : AllOk (s.setFb (fullFramebuffer f)) (streamPlan f) := h
  rw [Progress.pageStream_eq_emitAll fbIs_full, Progress.emitAll_ok _ h']
  rfl

theorem complete_stream_fault {s : State} {f : Nat → Byte} {n : Nat} {tx : Transaction}
    (h : FirstFault s (streamPlan f) n tx) :
    ((Progress.running (s.setFb (fullFramebuffer f)) 0#8).pageStream).complete =
      failed (sentThenFault (s.setFb (fullFramebuffer f)) ((streamPlan f).take n) tx)
        0x35#8 (BitVec.ofNat 8 n) 0x04#8 := by
  have h' : FirstFault (s.setFb (fullFramebuffer f)) (streamPlan f) n tx := h
  rw [Progress.pageStream_eq_emitAll fbIs_full, Progress.emitAll_fault _ h',
    Progress.complete_ended, BitVec.zero_add]
  rfl

/-- The pseudocode SHOW_IMAGE and the bracketed updates share: display off, FB written whole, page
stream, display on (R85, R86, R88). -/
def Progress.bracketedUpdate (g : Progress) (f : Nat → Byte) : Progress :=
  (((g.emitCmd 0xAE#8).write fun s => s.setFb (fullFramebuffer f)).pageStream).emitCmd 0xAF#8

theorem Progress.pageStream_ended (s : State) : (Progress.ended s).pageStream = .ended s := rfl

/-- The part after display-off is one list of Emits from the state whose FB is written. -/
theorem bracketedUpdate_after_off (s : State) (f : Nat → Byte) (k : Byte) :
    ((Progress.running (s.setFb (fullFramebuffer f)) k).pageStream).emitCmd 0xAF#8 =
      (Progress.running (s.setFb (fullFramebuffer f)) k).emitAll
        (streamPlan f ++ [.cmd 0xAF#8]) := by
  rw [Progress.pageStream_eq_emitAll fbIs_full, Progress.emitAll_append]
  rfl

theorem complete_bracketed_ok {s : State} {f : Nat → Byte} (h : AllOk s (bracketedPlan f)) :
    ((Progress.running s 0#8).bracketedUpdate f).complete =
      succeeded (sent (s.setFb (fullFramebuffer f)) (bracketedPlan f)) := by
  have h0 : s.answerAt 0 (.cmd 0xAE#8) = .ok := h 0 _ rfl
  have hrest : AllOk ((s.appendOut (.cmd 0xAE#8) .ok).setFb (fullFramebuffer f))
      (streamPlan f ++ [.cmd 0xAF#8]) := allOk_tail (s := s) h
  have he : (Progress.running s 0#8).emitCmd 0xAE#8 =
      .running (s.appendOut (.cmd 0xAE#8) .ok) (0#8 + 1#8) := Progress.emitFrom_ok _ h0
  rw [Progress.bracketedUpdate, he, Progress.write_running, bracketedUpdate_after_off,
    Progress.emitAll_ok _ hrest, Progress.complete_running]
  show succeeded (sent ((s.appendOut (.cmd 0xAE#8) .ok).setFb (fullFramebuffer f)) _) = _
  congr 1
  exact (sent_cons (s.setFb (fullFramebuffer f)) (.cmd 0xAE#8) _).symm

/-- A fault on display-off leaves FB as it was, a later one leaves it written (R86, R88, R96). -/
theorem complete_bracketed_fault {s : State} {f : Nat → Byte} {n : Nat} {tx : Transaction}
    (h : FirstFault s (bracketedPlan f) n tx) :
    ((Progress.running s 0#8).bracketedUpdate f).complete =
      failed (sentThenFault (if n = 0 then s else s.setFb (fullFramebuffer f))
        ((bracketedPlan f).take n) tx) 0x35#8 (BitVec.ofNat 8 n) 0x04#8 := by
  cases n with
  | zero =>
    have h1 : tx = .cmd 0xAE#8 := by
      have := h.1; simp [bracketedPlan] at this; exact this.symm
    subst h1
    have he : (Progress.running s 0#8).emitCmd 0xAE#8 =
        .ended ((s.appendOut (.cmd 0xAE#8) .fault).recordError .transportFault .transport 0#8) :=
      Progress.emitFrom_fault _ h.2.1
    rw [Progress.bracketedUpdate, he, Progress.write_ended, Progress.pageStream_ended,
      Progress.emitCmd_ended, Progress.complete_ended]
    simp [sentThenFault, failed, State.appendOut, State.recordError, errStatusByte, stickyFlag,
      ErrorKind.code, Cause.code]
  | succ n =>
    have h0 : s.answerAt 0 (.cmd 0xAE#8) = .ok := h.2.2 0 _ (Nat.succ_pos n) rfl
    have hrest : FirstFault ((s.appendOut (.cmd 0xAE#8) .ok).setFb (fullFramebuffer f))
        (streamPlan f ++ [.cmd 0xAF#8]) n tx := firstFault_tail (s := s) h
    have he : (Progress.running s 0#8).emitCmd 0xAE#8 =
        .running (s.appendOut (.cmd 0xAE#8) .ok) (0#8 + 1#8) := Progress.emitFrom_ok _ h0
    have htake : (bracketedPlan f).take (n + 1) =
        Transaction.cmd 0xAE#8 :: (streamPlan f ++ [Transaction.cmd 0xAF#8]).take n := rfl
    rw [Progress.bracketedUpdate, he, Progress.write_running, bracketedUpdate_after_off,
      Progress.emitAll_fault _ hrest, Progress.complete_ended, htake,
      if_neg (Nat.succ_ne_zero n), sentThenFault_cons, BitVec.zero_add, Nat.add_comm n 1,
      BitVec.ofNat_add]
    rfl

end Sys2Proof.Machine
end

