-- ==== Sys2Proof/Laws/Codec.lean ====
section
/-! SUPPORT. The threshold and the bit-pack, said once: which pixel each framebuffer bit comes from. -/

namespace Sys2Proof.Machine

open Sys2Proof.Safety

theorem thr_eq_dark (v : Byte) : thr v = BitVec.ofBool (dark v) := by
  by_cases h : v.toNat < 128 <;> simp [thr, dark, h]

/-- The fold of R74, seen one bit at a time: bit `i` is set by the step `j = i` and by no other. -/
theorem getLsbD_orFold (f : Nat → Bool) (n : Nat) (hn : n ≤ 8) (i : Nat) :
    ((List.range n).foldl (fun (b : Byte) j => b ||| ((BitVec.ofBool (f j)).setWidth 8 <<< j))
      0x00#8).getLsbD i = (decide (i < n) && f i) := by
  induction n with
  | zero => simp
  | succ n ih =>
    rw [List.range_succ, List.foldl_append, List.foldl_cons, List.foldl_nil, BitVec.getLsbD_or,
      ih (by omega)]
    rcases Nat.lt_trichotomy i n with h | h | h
    · have : ((BitVec.ofBool (f n)).setWidth 8 <<< n).getLsbD i = false := by
        simp [BitVec.getLsbD_shiftLeft, h]
      simp [this, h, Nat.lt_succ_of_lt h]
    · subst h
      have h8 : i < 8 := by omega
      simp [h8]
    · have h1 : ¬ i < n := by omega
      have h2 : ¬ i < n + 1 := by omega
      have h3 : ¬ i - n = 0 := by omega
      simp [BitVec.getLsbD_shiftLeft, h1, h2, h3]

/-- Bit j of Pack(p, c) is the threshold of the pixel at row p*8 + j, column c (R74). -/
theorem State.pack_getLsbD (s : State) (p c : Nat) {j : Nat} (hj : j < 8) :
    (s.pack p c).getLsbD j = dark (s.pixByte ((p * 8 + j) * 128 + c)) := by
  have h := getLsbD_orFold (fun j => dark (s.pixByte ((p * 8 + j) * 128 + c))) 8 (Nat.le_refl 8) j
  simp only [State.pack, thr_eq_dark, pixelAddress, Config.pageRows, Config.width]
  rw [h]
  simp [hj]

/-- Pack reads PIX alone. -/
theorem State.pack_congr {s t : State} (hp : t.pix = s.pix) (hc : t.resetCount = s.resetCount)
    (p c : Nat) : t.pack p c = s.pack p c := by
  simp [State.pack, State.pixByte_congr hp hc]

/-- Two bytes with the same bits are equal. -/
theorem byte_ext {a b : Byte} (h : ∀ j, j < 8 → a.getLsbD j = b.getLsbD j) : a = b :=
  BitVec.eq_of_getLsbD_eq h

/-- The framebuffer EncodeFB writes, given as any function that is the image in PIX. -/
theorem encodeFB_eq_of_isImageOf {s : State} {fb : Nat → Byte} (h : IsImageOf s fb) :
    s.encodeFB = s.setFb (fullFramebuffer fb) := by
  unfold State.encodeFB
  congr 1
  refine fullFramebuffer_congr fun i hi => byte_ext fun j hj => ?_
  have hd : i / 128 * 128 + i % 128 = i := by omega
  have h1 := h (i / 128) (i % 128) j (by omega) (Nat.mod_lt _ (by decide)) hj
  rw [hd] at h1
  exact (State.pack_getLsbD s _ _ hj).trans h1.symm

/-- What EncodeFB writes is the image in PIX (R76). -/
theorem isImageOf_encodeFB (s : State) : IsImageOf s s.encodeFB.fbByte := by
  intro p c j hp hc hj
  have hi : p * 128 + c < 768 := by omega
  rw [State.fbByte_of_full (f := fun i => s.pack (i / 128) (i % 128)) rfl hi]
  rw [show (p * 128 + c) / 128 = p from by omega, show (p * 128 + c) % 128 = c from by omega]
  exact State.pack_getLsbD s p c hj

/-- A function that is the image in PIX exists: the packed bytes themselves. -/
theorem isImageOf_pack (s : State) : IsImageOf s fun i => s.pack (i / 128) (i % 128) := by
  intro p c j hp hc hj
  show (s.pack ((p * 128 + c) / 128) ((p * 128 + c) % 128)).getLsbD j = _
  rw [show (p * 128 + c) / 128 = p from by omega, show (p * 128 + c) % 128 = c from by omega]
  exact State.pack_getLsbD s p c hj

end Sys2Proof.Machine
end

