-- ==== Sys2Proof/Laws/Exec.lean ====
section
/-! SUPPORT. What each operation does, brought to the shared operations it is made of, and one
inversion lemma for all six. -/

namespace Sys2Proof.Machine

open Sys2Proof.Safety

/-! ### Command bytes of an operand -/

theorem pageSelectByte_operand (arg : Byte) : pageSelectByte (pageOperand arg) = 0xB0#8 ||| arg := by
  simp [pageSelectByte, pageOperand]

theorem columnLowByte_operand (arg : Byte) :
    columnLowByte (columnOperand arg) = 0x00#8 ||| (arg &&& 0xF#8) := by
  revert arg; decide +kernel

theorem columnHighByte_operand (arg : Byte) :
    columnHighByte (columnOperand arg) = 0x10#8 ||| ((arg >>> 4) &&& 0xF#8) := by
  revert arg; decide +kernel

theorem pageOutOfRange_operand (arg : Byte) :
    pageOutOfRange (pageOperand arg) = decide (5 < arg.toNat) := by
  revert arg; decide +kernel

theorem columnOutOfRange_operand (arg : Byte) :
    columnOutOfRange (columnOperand arg) = decide (127 < arg.toNat) := by
  revert arg; decide +kernel

/-! ### The dimension check -/

theorem dimMismatch_iff (s : State) : s.dimMismatch = true ↔ ¬ DimsOk s := by
  by_cases h1 : s.imgW = 128#8 <;> by_cases h2 : s.imgH = 48#8 <;>
    simp [State.dimMismatch, DimsOk, h1, h2]

/-- ERR_INFO of a mismatch lies in 1..3 (R94). -/
theorem dimInfo_range (s : State) (h : ¬ DimsOk s) :
    1 ≤ (dimInfo s.imgW s.imgH).toNat ∧ (dimInfo s.imgW s.imgH).toNat ≤ 3 := by
  have key : ∀ a b : Bool, (a || b) = true →
      1 ≤ ((flagBit b ++ flagBit a).setWidth 8).toNat ∧
        ((flagBit b ++ flagBit a).setWidth 8).toNat ≤ 3 := by decide
  exact key _ _ ((dimMismatch_iff s).2 h)

/-! ### What an operation that only sends leaves -/

theorem complete_emitAll_ok {s : State} {txs : List Transaction} (h : AllOk s txs) :
    ((Progress.running s 0#8).emitAll txs).complete = succeeded (sent s txs) := by
  rw [Progress.emitAll_ok _ h]; rfl

theorem complete_emitAll_fault {s : State} {txs : List Transaction} {k : Nat} {tx : Transaction}
    (h : FirstFault s txs k tx) :
    ((Progress.running s 0#8).emitAll txs).complete =
      failed (sentThenFault s (txs.take k) tx) 0x35#8 (BitVec.ofNat 8 k) 0x04#8 := by
  rw [Progress.emitAll_fault _ h, BitVec.zero_add]; rfl

/-! ### Each operation -/

theorem execSelectPage_outOfRange {arg : Byte} (s : State) (h : 5 < arg.toNat) :
    execSelectPage arg s = .next (failed s 0x12#8 arg 0x01#8) := by
  simp only [execSelectPage, runOperation, Progress.raiseIf, Progress.andThen_running,
    pageOutOfRange_operand, h, decide_true, if_true, raiseError, Progress.emitCmd_ended,
    Progress.complete_ended]
  rfl

theorem execSelectPage_legal {arg : Byte} (s : State) (h : arg.toNat ≤ 5) :
    execSelectPage arg s =
      .next ((Progress.running s 0#8).emitAll [.cmd (0xB0#8 ||| arg)]).complete := by
  have hr : ¬ 5 < arg.toNat := by omega
  simp only [execSelectPage, runOperation, Progress.raiseIf, Progress.andThen_running,
    pageOutOfRange_operand, pageSelectByte_operand, hr, decide_false]
  rfl

theorem execSelectColumn_outOfRange {arg : Byte} (s : State) (h : 127 < arg.toNat) :
    execSelectColumn arg s = .next (failed s 0x13#8 arg 0x01#8) := by
  simp only [execSelectColumn, runOperation, Progress.raiseIf, Progress.andThen_running,
    columnOutOfRange_operand, h, decide_true, if_true, raiseError, Progress.emitCmd_ended,
    Progress.complete_ended]
  rfl

theorem execSelectColumn_legal {arg : Byte} (s : State) (h : arg.toNat ≤ 127) :
    execSelectColumn arg s =
      .next ((Progress.running s 0#8).emitAll
        [.cmd (0x00#8 ||| (arg &&& 0xF#8)), .cmd (0x10#8 ||| ((arg >>> 4) &&& 0xF#8))]).complete := by
  have hr : ¬ 127 < arg.toNat := by omega
  simp only [execSelectColumn, runOperation, Progress.raiseIf, Progress.andThen_running,
    columnOutOfRange_operand, columnCmds, columnLowByte_operand, columnHighByte_operand, hr,
    decide_false]
  rfl

theorem execEncode_mismatch {s : State} (h : ¬ DimsOk s) :
    execEncode s = .next (failed s 0x24#8 (dimInfo s.imgW s.imgH) 0x02#8) := by
  simp only [execEncode, runOperation, Progress.encodeCheck, Progress.raiseIf,
    Progress.andThen_running, (dimMismatch_iff s).2 h, if_true, raiseError, Progress.write_ended,
    Progress.complete_ended]
  rfl

theorem execEncode_match {s : State} (h : DimsOk s) : execEncode s = .next (succeeded s.encodeFB) := by
  have hd : s.dimMismatch = false := by
    rw [← Bool.not_eq_true, dimMismatch_iff]; exact not_not.2 h
  simp only [execEncode, runOperation, Progress.encodeCheck, Progress.raiseIf,
    Progress.andThen_running, hd]
  rfl

theorem execShowImage_mismatch {s : State} (h : ¬ DimsOk s) :
    execShowImage s = .next (failed s 0x24#8 (dimInfo s.imgW s.imgH) 0x02#8) := by
  simp only [execShowImage, runOperation, Progress.encodeCheck, Progress.raiseIf,
    Progress.andThen_running, (dimMismatch_iff s).2 h, if_true, raiseError, Progress.write_ended,
    Progress.emitCmd_ended, Progress.pageStream_ended, Progress.complete_ended]
  rfl

/-- What display-off leaves: the first transaction sent and k at 1, or the operation ended. -/
theorem emitCmd_running_cases (s : State) (k b : Byte) :
    (Progress.running s k).emitCmd b = .running (s.appendOut (.cmd b) .ok) (k + 1#8) ∨
    (Progress.running s k).emitCmd b =
      .ended ((s.appendOut (.cmd b) .fault).recordError .transportFault .transport k) := by
  cases h : s.answerAt 0 (.cmd b) with
  | ok => exact .inl (Progress.emitFrom_ok _ h)
  | fault => exact .inr (Progress.emitFrom_fault _ h)

theorem execShowImage_match {s : State} {fb : Nat → Byte} (h : DimsOk s) (hf : IsImageOf s fb) :
    execShowImage s = .next ((Progress.running s 0#8).bracketedUpdate fb).complete := by
  have hd : s.dimMismatch = false := by
    rw [← Bool.not_eq_true, dimMismatch_iff]; exact not_not.2 h
  have hc : (Progress.running s 0#8).encodeCheck = .running s 0#8 := by
    simp [Progress.encodeCheck, Progress.raiseIf, hd]
  have hw : ((Progress.running s 0#8).emitCmd displayOffByte).write State.encodeFB =
      ((Progress.running s 0#8).emitCmd 0xAE#8).write fun s => s.setFb (fullFramebuffer fb) := by
    show ((Progress.running s 0#8).emitCmd 0xAE#8).write _ = _
    rcases emitCmd_running_cases s 0#8 0xAE#8 with he | he
    · have hi : IsImageOf (s.appendOut (.cmd 0xAE#8) .ok) fb := hf
      rw [he, Progress.write_running, Progress.write_running, encodeFB_eq_of_isImageOf hi]
    · rw [he]; rfl
  unfold execShowImage runOperation Progress.bracketedUpdate
  simp only [hc, hw]
  rfl

theorem emitBracket_running (s : State) (k b : Byte) :
    (Progress.running s k).emitBracket b =
      if s.bracketClearFill then (Progress.running s k).emitCmd b else .running s k := rfl

theorem emitBracket_ended (s : State) (b : Byte) : (Progress.ended s).emitBracket b = .ended s := rfl

/-- After a page stream the bracket still reads the parameter the operation started with. -/
theorem emitBracket_pageStream (s : State) (f : Nat → Byte) (k b : Byte) :
    ((Progress.running (s.setFb (fullFramebuffer f)) k).pageStream).emitBracket b =
      if s.bracketClearFill then
        ((Progress.running (s.setFb (fullFramebuffer f)) k).pageStream).emitCmd b
      else (Progress.running (s.setFb (fullFramebuffer f)) k).pageStream := by
  rw [Progress.pageStream_eq_emitAll fbIs_full]
  rcases allOk_or_firstFault (s.setFb (fullFramebuffer f)) (streamPlan f) with h | ⟨n, tx, h⟩
  · rw [Progress.emitAll_ok _ h, emitBracket_running]; rfl
  · rw [Progress.emitAll_fault _ h, emitBracket_ended]
    split <;> rfl

/-- CLEAR and FILL, with and without the bracket (R85, R88, R90). -/
theorem surfaceUpdate_eq (v : Byte) (s : State) :
    Progress.surfaceUpdate v (.running s 0#8) =
      if s.bracketClearFill then (Progress.running s 0#8).bracketedUpdate fun _ => v
      else (Progress.running (s.setFb (fullFramebuffer fun _ => v)) 0#8).pageStream := by
  unfold Progress.surfaceUpdate Progress.bracketedUpdate
  rw [emitBracket_running]
  by_cases hb : s.bracketClearFill = true
  · rw [if_pos hb, if_pos hb]
    rcases emitCmd_running_cases s 0#8 0xAE#8 with he | he
    · have hb' : (s.appendOut (.cmd 0xAE#8) .ok).bracketClearFill = true := hb
      rw [show displayOffByte = 0xAE#8 from rfl, he, Progress.write_running,
        Progress.write_running]
      refine (emitBracket_pageStream _ _ _ _).trans ?_
      rw [if_pos hb']
      rfl
    · rw [show displayOffByte = 0xAE#8 from rfl, he]; rfl
  · rw [if_neg hb, if_neg hb, Progress.write_running]
    refine (emitBracket_pageStream _ _ _ _).trans ?_
    rw [if_neg hb]

/-! ### One inversion lemma for all operations -/

/-- The transactions of a plan are ones the block can emit. -/
theorem emittable_streamPlan (f : Nat → Byte) : ∀ tx ∈ streamPlan f, emittable tx := by
  intro tx htx
  obtain ⟨k, hk, rfl⟩ := List.mem_map.1 htx
  have hk' : k < 24 := List.mem_range.1 hk
  unfold streamTx
  split
  · have : k / 4 < 6 := by omega
    generalize k / 4 = p at *
    interval_cases p <;> simp [emittable] <;> decide
  · split
    · simp [emittable]; decide
    · split
      · simp [emittable]; decide
      · simp [emittable, pageBytes]

theorem emittable_bracketedPlan (f : Nat → Byte) : ∀ tx ∈ bracketedPlan f, emittable tx := by
  intro tx htx
  simp only [bracketedPlan, List.mem_append, List.mem_singleton] at htx
  rcases htx with (rfl | h) | rfl
  · simp [emittable]; decide
  · exact emittable_streamPlan f tx h
  · simp [emittable]; decide

/-- The operations that may write FB (R14). -/
def writesFb : Instr → Bool
  | .selectPage _ => false
  | .selectColumn _ => false
  | .encode => true
  | .showImage => true
  | .clear => true
  | .fill => true

/-- The operations that may send transactions (R14). -/
def sends : Instr → Bool
  | .selectPage _ => true
  | .selectColumn _ => true
  | .encode => false
  | .showImage => true
  | .clear => true
  | .fill => true

/-- What an operation that got past its checks leaves: with FB as it was or written whole, its plan
sent, or the part of its plan up to the first transaction answered fault. `w` and `e` say whether it
may write FB and whether it may send. -/
def Ran (w e : Bool) (s t : State) : Prop :=
  ∃ (m : Memory) (plan : List Transaction), plan.length ≤ 26 ∧ (∀ tx ∈ plan, emittable tx) ∧
    (m = s.fb ∨ w = true ∧ ∃ f, m = fullFramebuffer f) ∧ (plan = [] ∨ e = true) ∧
    (t = succeeded (sent (withFb s m) plan) ∨
     ∃ k tx, plan[k]? = some tx ∧
       t = failed (sentThenFault (withFb s m) (plan.take k) tx) 0x35#8 (BitVec.ofNat 8 k) 0x04#8)

theorem ran_emitAll (s : State) (plan : List Transaction) (hl : plan.length ≤ 26)
    (he : ∀ tx ∈ plan, emittable tx) : Ran false true s ((Progress.running s 0#8).emitAll plan).complete := by
  refine ⟨s.fb, plan, hl, he, .inl rfl, .inr rfl, ?_⟩
  rcases allOk_or_firstFault s plan with h | ⟨k, tx, h⟩
  · exact .inl (complete_emitAll_ok h)
  · exact .inr ⟨k, tx, h.1, complete_emitAll_fault h⟩

theorem ran_bracketed (s : State) (f : Nat → Byte) :
    Ran true true s ((Progress.running s 0#8).bracketedUpdate f).complete := by
  have hl : (bracketedPlan f).length ≤ 26 := by simp [bracketedPlan]
  rcases allOk_or_firstFault s (bracketedPlan f) with h | ⟨k, tx, h⟩
  · exact ⟨fullFramebuffer f, _, hl, emittable_bracketedPlan f, .inr ⟨rfl, f, rfl⟩, .inr rfl,
      .inl (complete_bracketed_ok h)⟩
  · have hc := complete_bracketed_fault h
    by_cases hk : k = 0
    · subst hk
      exact ⟨s.fb, _, hl, emittable_bracketedPlan f, .inl rfl, .inr rfl,
        .inr ⟨0, tx, h.1, hc⟩⟩
    · rw [if_neg hk] at hc
      exact ⟨fullFramebuffer f, _, hl, emittable_bracketedPlan f, .inr ⟨rfl, f, rfl⟩, .inr rfl,
        .inr ⟨k, tx, h.1, hc⟩⟩

theorem ran_stream (s : State) (f : Nat → Byte) :
    Ran true true s ((Progress.running (s.setFb (fullFramebuffer f)) 0#8).pageStream).complete := by
  have hl : (streamPlan f).length ≤ 26 := by simp
  refine ⟨fullFramebuffer f, _, hl, emittable_streamPlan f, .inr ⟨rfl, f, rfl⟩, .inr rfl, ?_⟩
  rcases allOk_or_firstFault s (streamPlan f) with h | ⟨k, tx, h⟩
  · exact .inl (complete_stream_ok h)
  · exact .inr ⟨k, tx, h.1, complete_stream_fault h⟩

theorem ran_surfaceUpdate (v : Byte) (s : State) :
    Ran true true s (Progress.surfaceUpdate v (.running s 0#8)).complete := by
  rw [surfaceUpdate_eq]
  split
  · exact ran_bracketed s _
  · exact ran_stream s _

theorem emittable_pageSelect {arg : Byte} (h : arg.toNat ≤ 5) : emittable (.cmd (0xB0#8 ||| arg)) := by
  revert arg; unfold emittable; decide +kernel

theorem emittable_columnLow (arg : Byte) :
    emittable (.cmd (0x00#8 ||| (arg &&& 0xF#8))) := by
  revert arg; unfold emittable; decide +kernel

theorem emittable_columnHigh {arg : Byte} (h : arg.toNat ≤ 127) :
    emittable (.cmd (0x10#8 ||| ((arg >>> 4) &&& 0xF#8))) := by
  revert arg; unfold emittable; decide +kernel

/-- Everything an operation can do: it is turned away by its own check, or it runs. -/
theorem exec_cases (i : Instr) (s : State) : ∃ t, exec i s = .next t ∧
    ((∃ arg, i = .selectPage arg ∧ 5 < arg.toNat ∧ t = failed s 0x12#8 arg 0x01#8) ∨
     (∃ arg, i = .selectColumn arg ∧ 127 < arg.toNat ∧ t = failed s 0x13#8 arg 0x01#8) ∨
     ((i = .encode ∨ i = .showImage) ∧ ¬ DimsOk s ∧
        t = failed s 0x24#8 (dimInfo s.imgW s.imgH) 0x02#8) ∨
     Ran (writesFb i) (sends i) s t) := by
  cases i with
  | selectPage arg =>
    by_cases h : 5 < arg.toNat
    · exact ⟨_, execSelectPage_outOfRange s h, .inl ⟨arg, rfl, h, rfl⟩⟩
    · exact ⟨_, execSelectPage_legal s (by omega), .inr (.inr (.inr (ran_emitAll s _ (by simp)
        (by simpa using emittable_pageSelect (by omega)))))⟩
  | selectColumn arg =>
    by_cases h : 127 < arg.toNat
    · exact ⟨_, execSelectColumn_outOfRange s h, .inr (.inl ⟨arg, rfl, h, rfl⟩)⟩
    · refine ⟨_, execSelectColumn_legal s (by omega), .inr (.inr (.inr (ran_emitAll s _ (by simp) ?_)))⟩
      intro tx htx
      rcases List.mem_cons.1 htx with rfl | htx
      · exact emittable_columnLow arg
      · rw [List.mem_singleton.1 htx]
        exact emittable_columnHigh (by omega)
  | encode =>
    by_cases h : DimsOk s
    · exact ⟨_, execEncode_match h, .inr (.inr (.inr ⟨s.encodeFB.fb, [], by simp, by simp,
        .inr ⟨rfl, _, rfl⟩, .inl rfl, .inl (by rw [sent_nil]; rfl)⟩))⟩
    · exact ⟨_, execEncode_mismatch h, .inr (.inr (.inl ⟨.inl rfl, h, rfl⟩))⟩
  | showImage =>
    by_cases h : DimsOk s
    · exact ⟨_, execShowImage_match h (isImageOf_pack s), .inr (.inr (.inr (ran_bracketed s _)))⟩
    · exact ⟨_, execShowImage_mismatch h, .inr (.inr (.inl ⟨.inr rfl, h, rfl⟩))⟩
  | clear => exact ⟨_, rfl, .inr (.inr (.inr (ran_surfaceUpdate _ s)))⟩
  | fill => exact ⟨_, rfl, .inr (.inr (.inr (ran_surfaceUpdate _ s)))⟩

end Sys2Proof.Machine
end

