-- ==== Sys2Proof/Laws/PerInstr.lean ====
section
/-! SUPPORT. Statements made once per operation, as syntax. -/

namespace Sys2Proof.Laws

/-- The family TableRow: the encoded word carries the operation's OPC and ARG, and selects the row of
the opcode map that has its mnemonic and no other (R46, R49, R50). -/
def TableRow.Statement (i : Instr) : Prop :=
  (encode i).opc = i.opcode ∧ (encode i).arg = i.argByte ∧
    ∀ r ∈ opcodeTable, r.selects (encode i) = true ↔ r.mnemonic = i.mnemonic

theorem OpWord.opc_ofBytes (arg opc : Byte) : (OpWord.ofBytes arg opc).opc = opc := by
  apply BitVec.eq_of_getLsbD_eq
  intro j hj
  rw [OpWord.opc, OpWord.ofBytes, BitVec.getLsbD_extractLsb', Nat.zero_add]
  exact (congrArg (decide (j < 8) && ·) (BitVec.getLsbD_append (x := arg) (y := opc) (i := j))).trans
    (by simp [hj])

theorem OpWord.arg_ofBytes (arg opc : Byte) : (OpWord.ofBytes arg opc).arg = arg := by
  apply BitVec.eq_of_getLsbD_eq
  intro j hj
  rw [OpWord.arg, OpWord.ofBytes, BitVec.getLsbD_extractLsb']
  exact (congrArg (decide (j < 8) && ·)
    (BitVec.getLsbD_append (x := arg) (y := opc) (i := 8 + j))).trans (by simp [hj])

theorem OpWord.mask_ofBytes (arg opc : Byte) :
    OpWord.ofBytes arg opc &&& 0x00FF#16 = OpWord.ofBytes 0x00#8 opc := by
  apply BitVec.eq_of_getLsbD_eq
  intro j hj
  have hm : (0x00FF#16).getLsbD j = decide (j < 8) := by
    interval_cases j <;> rfl
  simp only [OpWord.ofBytes, BitVec.getLsbD_and, BitVec.getLsbD_append, hm]
  by_cases h : j < 8 <;> simp [h]

theorem TableRow.selectPage (arg : Byte) : TableRow.Statement (.selectPage arg) :=
  ⟨OpWord.opc_ofBytes _ _, OpWord.arg_ofBytes _ _, by
    intro r hr
    have hm : encode (.selectPage arg) &&& 0x00FF#16 = 0x0001#16 := OpWord.mask_ofBytes arg 0x01#8
    simp only [opcodeTable, List.mem_cons, List.not_mem_nil, or_false] at hr
    rcases hr with rfl | rfl | rfl | rfl | rfl | rfl <;>
      simp [OpcodeRow.selects, hm, Instr.mnemonic]⟩

theorem TableRow.selectColumn (arg : Byte) : TableRow.Statement (.selectColumn arg) :=
  ⟨OpWord.opc_ofBytes _ _, OpWord.arg_ofBytes _ _, by
    intro r hr
    have hm : encode (.selectColumn arg) &&& 0x00FF#16 = 0x0002#16 := OpWord.mask_ofBytes arg 0x02#8
    simp only [opcodeTable, List.mem_cons, List.not_mem_nil, or_false] at hr
    rcases hr with rfl | rfl | rfl | rfl | rfl | rfl <;>
      simp [OpcodeRow.selects, hm, Instr.mnemonic]⟩

theorem TableRow.encode : TableRow.Statement .encode := by unfold TableRow.Statement; decide

theorem TableRow.showImage : TableRow.Statement .showImage := by unfold TableRow.Statement; decide

theorem TableRow.clear : TableRow.Statement .clear := by unfold TableRow.Statement; decide

theorem TableRow.fill : TableRow.Statement .fill := by unfold TableRow.Statement; decide

end Sys2Proof.Laws
end

