-- ==== Sys2Proof/Laws/HostAction.lean ====
section
/-! SUPPORT. The address map by ranges, and one inversion lemma for issuing an operation and one for
performing a host action. -/

namespace Sys2Proof.Machine

open Sys2Proof.Safety

/-! ### The address map by ranges (R32) -/

theorem locationOf_pix {addr : Addr} (h : addr.toNat < 0x1800) : locationOf addr = .pix addr.toNat := by
  simp [locationOf, h]

theorem locationOf_fb {addr : Addr} (h : 0x1800 ≤ addr.toNat) (h' : addr.toNat < 0x1B00) :
    locationOf addr = .fb (addr.toNat - 0x1800) := by
  simp [locationOf, h', Nat.not_lt.2 h]

theorem locationOf_hole {addr : Addr} (h : 0x1B00 ≤ addr.toNat) (h' : addr.toNat < 0x1C00) :
    locationOf addr = .unmapped := by
  have h1 : ¬ addr.toNat < 0x1800 := by omega
  have h2 : ¬ addr.toNat < 0x1B00 := by omega
  simp [locationOf, h1, h2, h']

theorem locationOf_above {addr : Addr} (h : 0x1C07 ≤ addr.toNat) : locationOf addr = .unmapped := by
  have h1 : ¬ addr.toNat < 0x1800 := by omega
  have h2 : ¬ addr.toNat < 0x1B00 := by omega
  have h3 : ¬ addr.toNat < 0x1C00 := by omega
  have hn : ∀ n, n < 0x1C07 → ¬ addr.toNat = n := fun n hn => by omega
  simp [locationOf, h1, h2, h3, hn]

/-- The seven register addresses. -/
theorem locationOf_register {addr : Addr} (h : 0x1C00 ≤ addr.toNat) (h' : addr.toNat < 0x1C07) :
    (addr = 0x1C00#16 ∧ locationOf addr = .imgW) ∨ (addr = 0x1C01#16 ∧ locationOf addr = .imgH) ∨
    (addr = 0x1C02#16 ∧ locationOf addr = .opArg) ∨ (addr = 0x1C03#16 ∧ locationOf addr = .opIssue) ∨
    (addr = 0x1C04#16 ∧ locationOf addr = .errStatus) ∨
    (addr = 0x1C05#16 ∧ locationOf addr = .errInfo) ∨
    (addr = 0x1C06#16 ∧ locationOf addr = .sticky) := by
  have he : ∃ n, n < 7 ∧ addr = BitVec.ofNat 16 (0x1C00 + n) :=
    ⟨addr.toNat - 0x1C00, by omega, by
      apply BitVec.eq_of_toNat_eq
      rw [BitVec.toNat_ofNat]
      omega⟩
  obtain ⟨n, hn, rfl⟩ := he
  clear h h'
  interval_cases n <;> decide

/-- Every address lies in one of the map's ranges. -/
theorem addr_ranges (addr : Addr) :
    addr.toNat < 0x1800 ∨ (0x1800 ≤ addr.toNat ∧ addr.toNat < 0x1B00) ∨
    (0x1B00 ≤ addr.toNat ∧ addr.toNat < 0x1C00) ∨
    (0x1C00 ≤ addr.toNat ∧ addr.toNat < 0x1C07) ∨ 0x1C07 ≤ addr.toNat := by omega

/-- A write to OP_ISSUE issues the operation (R21). -/
theorem perform_opIssue (v : Byte) (s : State) : perform (.memWrite 0x1C03#16 v) s = issue v s := rfl

/-! ### Issuing an operation -/

/-- The decoder refuses reserved words alone, and names their OPC (R51). -/
theorem decode_error {w : OpWord} {e : DecodeError} (h : decode w = .error e) :
    e = .reservedOpcode w.opc ∧ (w.opc.toNat = 0 ∨ 7 ≤ w.opc.toNat) := by
  unfold decode at h
  split at h
  · cases h
  split at h
  · cases h
  split at h
  · cases h
  split at h
  · cases h
  split at h
  · cases h
  split at h
  · cases h
  next h1 h2 h3 h4 h5 h6 =>
  refine ⟨by injection h with h; exact h.symm, ?_⟩
  have hne : ∀ n, w.opc ≠ BitVec.ofNat 8 n → n < 256 → w.opc.toNat ≠ n := by
    intro n hn hlt he
    apply hn
    apply BitVec.eq_of_toNat_eq
    rw [he, BitVec.toNat_ofNat]
    omega
  have := hne 1 h1 (by decide)
  have := hne 2 h2 (by decide)
  have := hne 3 h3 (by decide)
  have := hne 4 h4 (by decide)
  have := hne 5 h5 (by decide)
  have := hne 6 h6 (by decide)
  omega

/-- What issuing an operation can do: raise RESERVED_OP, or run the operation the word decodes to. -/
theorem issue_cases (opc : Byte) (s : State) : ∃ t, issue opc s = .next t ∧
    ((t = failed s 0x11#8 opc 0x01#8 ∧ (opc.toNat = 0 ∨ 7 ≤ opc.toNat)) ∨
     ∃ i, decode (OpWord.ofBytes s.opArg opc) = .ok i ∧ exec i s = .next t) := by
  unfold issue
  cases h : decode (OpWord.ofBytes s.opArg opc) with
  | ok i =>
    obtain ⟨t, ht, _⟩ := exec_cases i s
    exact ⟨t, ht, .inr ⟨i, rfl, ht⟩⟩
  | error e =>
    refine ⟨failed s 0x11#8 opc 0x01#8, rfl, .inl ⟨rfl, ?_⟩⟩
    have hr := (decode_error h).2
    rwa [Sys2Proof.Laws.OpWord.opc_ofBytes] at hr

/-! ### Performing a host action -/

/-- What a host action that has a next state can do (R31, R33, R34). -/
theorem perform_cases {a : HostAction} {s t : State} (h : perform a s = .next t) :
    (∃ v, a = .memWrite 0x1C03#16 v ∧ issue v s = .next t) ∨
    (a = .reset ∧ t = s.blockReset) ∨
    (∃ addr v, a = .memRead addr ∧ s.readLocation (locationOf addr) = some v ∧
      t = { s with readLog := s.readLog ++ [v] }) ∨
    (∃ addr v, a = .memWrite addr v ∧ addr.toNat < 0x1800 ∧ t = s.writePix addr.toNat v) ∨
    (∃ v, a = .memWrite 0x1C00#16 v ∧ t = { s with imgW := v }) ∨
    (∃ v, a = .memWrite 0x1C01#16 v ∧ t = { s with imgH := v }) ∨
    (∃ v, a = .memWrite 0x1C02#16 v ∧ t = { s with opArg := v }) := by
  cases a with
  | reset => injection h with h; exact .inr (.inl ⟨rfl, h.symm⟩)
  | memRead addr =>
    simp only [perform, hostRead] at h
    split at h
    · next v hv =>
      injection h with h
      exact .inr (.inr (.inl ⟨addr, v, rfl, hv, h.symm⟩))
    · cases h
  | memWrite addr v =>
    simp only [perform, hostWrite] at h
    rcases addr_ranges addr with hr | hr | hr | hr | hr
    · rw [locationOf_pix hr] at h
      injection h with h
      exact .inr (.inr (.inr (.inl ⟨addr, v, rfl, hr, h.symm⟩)))
    · rw [locationOf_fb hr.1 hr.2] at h; cases h
    · rw [locationOf_hole hr.1 hr.2] at h; cases h
    · rcases locationOf_register hr.1 hr.2 with ⟨rfl, hl⟩ | ⟨rfl, hl⟩ | ⟨rfl, hl⟩ | ⟨rfl, hl⟩ |
        ⟨rfl, hl⟩ | ⟨rfl, hl⟩ | ⟨rfl, hl⟩ <;> rw [hl] at h
      · injection h with h; exact .inr (.inr (.inr (.inr (.inl ⟨v, rfl, h.symm⟩))))
      · injection h with h; exact .inr (.inr (.inr (.inr (.inr (.inl ⟨v, rfl, h.symm⟩)))))
      · injection h with h; exact .inr (.inr (.inr (.inr (.inr (.inr ⟨v, rfl, h.symm⟩)))))
      · exact .inl ⟨v, rfl, h⟩
      · cases h
      · cases h
      · cases h
    · rw [locationOf_above hr] at h; cases h

/-- What a step can do: nothing, when the host has stopped, or the host's next action. -/
theorem step_cases {s t : State} (h : step s = .next t) :
    (s.hostActions = [] ∧ t = s) ∨
    ∃ a rest, s.hostActions = a :: rest ∧ perform a { s with hostActions := rest } = .next t := by
  unfold step performNext at h
  split at h
  · next he => injection h with h; exact .inl ⟨he, h.symm⟩
  · next a rest he => exact .inr ⟨a, rest, he, h⟩

end Sys2Proof.Machine
end

