-- ==== Sys2Proof/Tests/Slice0.lean ====
section
/-! SUPPORT. The model's own tests. Expected values come from spec/: words written out from
30_encoding.md R46 and R50, the vectors of 95_test_vectors.md (named in each docstring), and a witness
for the hypotheses of every statement. -/

namespace Sys2Proof.Tests

open Sys2Proof.Machine Sys2Proof.Safety

/-! ### Helpers -/

/-- The state after reset with the sink's next answers given. -/
def withSink (answers : List SinkAnswer) : State := { State.reset with sinkAnswers := answers }

/-- The state after reset with PIX wholly written. -/
def withImage (img : Nat → Byte) : State :=
  { State.reset with pix := (List.range 6144).map fun a => (a, img a) }

/-- White but for one black pixel. -/
def onePixel (r c : Nat) (a : Nat) : Byte := if a = r * 128 + c then 0x00#8 else 0xFF#8

/-- The state after reset with PIX wholly written and the sink's next answers given. -/
def withImageAndSink (img : Nat → Byte) (answers : List SinkAnswer) : State :=
  { withImage img with sinkAnswers := answers }

/-- A sink whose next `n` answers are ok answers ok to `n` transactions. -/
theorem answerAt_replicate {s : State} {n : Nat} (h : s.sinkAnswers = List.replicate n .ok) {j : Nat}
    (hj : j < n) (tx : Transaction) : s.answerAt j tx = .ok := by
  simp only [State.answerAt, h, List.getElem?_replicate, if_pos hj]

/-- A check of the next state, false where the step stops. -/
def check (o : Host.Outcome State Fault Refusal) (p : State → Bool) : Bool :=
  match o with
  | .next t => p t
  | .fault _ => false
  | .refused _ => false

/-! ### Well-formedness: each check refuses an ill-formed term -/

theorem test_wf_page_refused : (Instr.selectPage 6#8).wellFormed = false := by decide

theorem test_wf_column_refused : (Instr.selectColumn 128#8).wellFormed = false := by decide

theorem test_wf_accepted : (Instr.selectPage 5#8).wellFormed = true ∧
    (Instr.selectColumn 127#8).wellFormed = true ∧ Instr.encode.wellFormed = true ∧
    Instr.showImage.wellFormed = true ∧ Instr.clear.wellFormed = true ∧
    Instr.fill.wellFormed = true := by decide

/-! ### Decoding: words written out bit by bit, ARG in 15:8 and OPC in 7:0 -/

/-- P2 line 1: 0x0201. -/
theorem test_decode_selectPage : decode 0b0000001000000001#16 = .ok (.selectPage 2#8) := by rfl

/-- P5 line 2: 0x7F02. -/
theorem test_decode_selectColumn : decode 0b0111111100000010#16 = .ok (.selectColumn 127#8) := by rfl

theorem test_decode_encode : decode 0b0000000000000011#16 = .ok .encode := by rfl

/-- V-SHOW-7: ARG = 0x33 is ignored. -/
theorem test_decode_showImage : decode 0b0011001100000100#16 = .ok .showImage := by rfl

theorem test_decode_clear : decode 0b0000000000000101#16 = .ok .clear := by rfl

theorem test_decode_fill : decode 0b0000000000000110#16 = .ok .fill := by rfl

/-- V-ERR-1 to V-ERR-3. -/
theorem test_decode_reserved : decode 0x0000#16 = .error (.reservedOpcode 0x00#8) ∧
    decode 0x0507#16 = .error (.reservedOpcode 0x07#8) ∧
    decode 0x00FF#16 = .error (.reservedOpcode 0xFF#8) := ⟨rfl, rfl, rfl⟩

/-- The table's bit numbering: OPC is the first byte. -/
theorem test_decodeBytes : decodeBytes [0x02#8, 0x5A#8, 0x99#8] = .ok (.selectColumn 0x5A#8, [0x99#8]) ∧
    decodeBytes [0x02#8] = .error .truncated ∧ decodeTableWord 16 0x0301 = some (.selectPage 3#8) ∧
    decodeTableWord 8 0x0301 = some (.selectPage 0#8) := ⟨rfl, rfl, rfl, rfl⟩

/-- Each operation runs as the first one after reset, whatever the free values are. -/
theorem test_first_step_runs :
    [0x0301, 0x5A02, 0x0003, 0x0004, 0x0005, 0x0006].all
      (fun w => check (step (State.reset.withFetchWord 16 w)) fun _ => true) = true := by decide +kernel

/-! ### The codec -/

/-- V-THR-1 to V-THR-6. -/
theorem test_threshold : thr 0x00#8 = 1#1 ∧ thr 0x01#8 = 1#1 ∧ thr 0x7F#8 = 1#1 ∧ thr 0x80#8 = 0#1 ∧
    thr 0x81#8 = 0#1 ∧ thr 0xFF#8 = 0#1 := by decide

/-- V-PACK-3: rows 0, 32, 64, 96, 128, 160, 192, 224 of column 0 pack to 0x0F. -/
theorem test_pack_boundary :
    ({ State.reset with pix := [(0, 0#8), (128, 32#8), (256, 64#8), (384, 96#8), (512, 128#8),
        (640, 160#8), (768, 192#8), (896, 224#8)] }).pack 0 0 = 0x0F#8 := by decide +kernel

/-- V-ENC-9: white except (10, 20): FB[148] = 0x04 and its neighbours 0x00. -/
theorem test_encode_one_pixel :
    check (exec .encode (withImage (onePixel 10 20))) (fun t =>
      t.fbByte 148 == 0x04#8 && t.fbByte 147 == 0x00#8 && t.fbByte 276 == 0x00#8 &&
        t.errStatus == 0x00#8 && t.out.isEmpty) = true := by decide +kernel

/-- V-ENC-19: IMG_W = 0 and IMG_H = 0. -/
theorem test_encode_dimensions :
    check (exec .encode { State.reset with imgW := 0#8, imgH := 0#8 }) (fun t =>
      t.errStatus == 0x24#8 && t.errInfo == 0x03#8 && t.sticky == 0x02#8 && t.fb.isEmpty) = true := by
  decide +kernel

/-! ### Addressing -/

/-- V-PG-6: ARG = 0x10 is not masked to page 0. -/
theorem test_selectPage_range :
    check (exec (.selectPage 0x10#8) State.reset) (fun t =>
      t.errStatus == 0x12#8 && t.errInfo == 0x10#8 && t.sticky == 0x01#8 && t.out.isEmpty) = true := by
  decide +kernel

/-- V-PG-8: ARG = 2, the sink faults. -/
theorem test_selectPage_fault :
    check (exec (.selectPage 2#8) (withSink [.fault])) (fun t =>
      t.out == [(.cmd 0xB2#8, .fault)] && t.errStatus == 0x35#8 && t.errInfo == 0x00#8 &&
        t.sticky == 0x04#8) = true := by decide +kernel

/-- V-COL-5: ARG = 0x5A. -/
theorem test_selectColumn_90 :
    check (exec (.selectColumn 0x5A#8) (withSink [.ok, .ok])) (fun t =>
      t.out == [(.cmd 0x0A#8, .ok), (.cmd 0x15#8, .ok)] && t.errStatus == 0x00#8) = true := by
  decide +kernel

/-- V-COL-10: the sink faults at k = 1. -/
theorem test_selectColumn_fault :
    check (exec (.selectColumn 90#8) (withSink [.ok, .fault])) (fun t =>
      t.out == [(.cmd 0x0A#8, .ok), (.cmd 0x15#8, .fault)] && t.errStatus == 0x35#8 &&
        t.errInfo == 0x01#8) = true := by decide +kernel

/-! ### Whole-surface updates -/

/-- V-SHOW-2: with V-ENC-9's image, the page-1 Data is at k = 8 and its byte 20 is 0x04. -/
theorem test_showImage_page1 :
    check (exec .showImage { withImage (onePixel 10 20) with sinkAnswers := List.replicate 26 .ok })
      (fun t => t.out.length == 26 && t.out[0]? == some (.cmd 0xAE#8, .ok) &&
        t.out[5]? == some (.cmd 0xB1#8, .ok) && t.out[25]? == some (.cmd 0xAF#8, .ok) &&
        match t.out[8]? with
        | some (Transaction.data bs, SinkAnswer.ok) => bs.length == 128 && bs[20]? == some 0x04#8 && bs[19]? == some 0x00#8
        | _ => false) = true := by decide +kernel

/-- V-SHOW-4: the sink faults at k = 0 and FB is unchanged. -/
theorem test_showImage_fault_first :
    check (exec .showImage (withSink [.fault])) (fun t =>
      t.out == [(.cmd 0xAE#8, .fault)] && t.fb.isEmpty && t.errStatus == 0x35#8 &&
        t.errInfo == 0x00#8) = true := by decide +kernel

/-- V-CLR-4: the sink faults at k = 3, page 0's Data. -/
theorem test_clear_fault :
    check (exec .clear (withSink [.ok, .ok, .ok, .fault])) (fun t =>
      t.out == [(.cmd 0xB0#8, .ok), (.cmd 0x00#8, .ok), (.cmd 0x10#8, .ok),
        (.data (List.replicate 128 0x00#8), .fault)] && t.fbByte 767 == 0x00#8 &&
        t.errStatus == 0x35#8 && t.errInfo == 0x03#8) = true := by decide +kernel

/-- V-CLR-2: bracketed, 26 entries. -/
theorem test_clear_bracketed :
    check (exec .clear { withSink (List.replicate 26 .ok) with bracketClearFill := true }) (fun t =>
      t.out.length == 26 && t.out[0]? == some (.cmd 0xAE#8, .ok) &&
        t.out[1]? == some (.cmd 0xB0#8, .ok) && t.out[25]? == some (.cmd 0xAF#8, .ok)) = true := by
  decide +kernel

/-- V-FIL-3: the sink faults at k = 7, page 1's Data. -/
theorem test_fill_fault :
    check (exec .fill (withSink (List.replicate 7 .ok ++ [.fault]))) (fun t =>
      t.out.length == 8 && t.out[7]? == some (.data (List.replicate 128 0xFF#8), .fault) &&
        t.fbByte 0 == 0xFF#8 && t.errInfo == 0x07#8) = true := by decide +kernel

/-- V-FIL-1: 24 entries, the last page's select at 20. -/
theorem test_fill_all_ok :
    check (exec .fill (withSink (List.replicate 24 .ok))) (fun t =>
      t.out.length == 24 && t.out[20]? == some (.cmd 0xB5#8, .ok) && t.errStatus == 0x00#8 &&
        t.sticky == 0x00#8) = true := by decide +kernel

/-! ### Errors and the host's side -/

/-- V-ERR-4: STICKY is kept when the next operation succeeds. -/
theorem test_sticky_kept :
    check (issue 0x01#8 { withSink [.ok] with opArg := 1#8, errStatus := 0x11#8, sticky := 0x01#8 })
      (fun t => t.errStatus == 0x00#8 && t.errInfo == 0x00#8 && t.sticky == 0x01#8) = true := by
  decide +kernel

/-- P2 line 6: `OP 0x09, 0x00`. -/
theorem test_reserved_word :
    check (perform (.memWrite 0x1C03#16 0x09#8) State.reset) (fun t =>
      t.errStatus == 0x11#8 && t.errInfo == 0x09#8 && t.sticky == 0x01#8) = true := by decide +kernel

/-- V-HOST-1 to V-HOST-3 and the map's boundaries. -/
theorem test_host_reads :
    State.reset.readLocation (locationOf 0x1C00#16) = some 0x80#8 ∧
    State.reset.readLocation (locationOf 0x1C01#16) = some 0x30#8 ∧
    State.reset.readLocation (locationOf 0x1C03#16) = some 0x00#8 ∧
    locationOf 0x17FF#16 = .pix 6143 ∧ locationOf 0x1800#16 = .fb 0 ∧
    locationOf 0x1AFF#16 = .fb 767 ∧ locationOf 0x1B00#16 = .unmapped ∧
    locationOf 0x1BFF#16 = .unmapped ∧ locationOf 0x1C02#16 = .opArg ∧
    locationOf 0x1C04#16 = .errStatus ∧ locationOf 0x1C05#16 = .errInfo ∧
    locationOf 0x1C06#16 = .sticky ∧ locationOf 0x1C07#16 = .unmapped ∧
    locationOf 0xFFFF#16 = .unmapped := by decide

/-- V-HOST-4: `WR 0x0514, 0x00` is pixel (10, 20). -/
theorem test_host_write_pix :
    check (perform (.memWrite 0x0514#16 0x00#8) State.reset) (fun t => t.pix == [(1300, 0x00#8)])
      = true := by decide +kernel

/-- V-HOST-6 to V-HOST-9. -/
theorem test_host_refusals :
    [HostAction.memWrite 0x1800#16 0x12#8, .memWrite 0x1C04#16 0x00#8, .memRead 0x1B00#16,
      .memRead 0x1C07#16].all (fun a => check (perform a State.reset) (fun _ => true) == false)
      = true := by decide +kernel

/-- Three different rows written out of order keep the canonical form. -/
theorem test_memory_canonical :
    Memory.write (Memory.write (Memory.write [] 9 1#8) 3 2#8) 9 7#8 = [(3, 2#8), (9, 7#8)] := by decide

/-! ### Witnesses: a concrete input meeting the hypotheses of each statement -/

theorem dimsOk_reset : DimsOk State.reset := ⟨rfl, rfl⟩

theorem dimsOk_withImage (img : Nat → Byte) : DimsOk (withImage img) := ⟨rfl, rfl⟩

theorem pixByte_withImage (img : Nat → Byte) {a : Nat} (h : a < 6144) :
    (withImage img).pixByte a = img a := by
  simp only [withImage, State.pixByte]
  rw [Memory.lookup_map_range img 6144 a, if_pos h]
  rfl

/-- ResetStateAndFreeDraws: the last PIX byte under a host read, the last FB byte under a PIX write. -/
theorem witness_drawStays :
    (6143 < 6144 ∧ HostAction.memRead 0x1C00#16 ≠ .reset ∧
      (∀ v, HostAction.memRead 0x1C00#16 ≠ .memWrite (BitVec.ofNat 16 6143) v) ∧
      ∃ t, perform (.memRead 0x1C00#16) State.reset = .next t) ∧
    (767 < 768 ∧ HostAction.memWrite 0x17FF#16 1#8 ≠ .reset ∧
      isIssue (.memWrite 0x17FF#16 1#8) = false ∧
      ∃ t, perform (.memWrite 0x17FF#16 1#8) State.reset = .next t) :=
  ⟨⟨by decide, by simp, by simp, _, rfl⟩, ⟨by decide, by simp, by decide, _, rfl⟩⟩

/-- StepRunsDecodedOperation, each clause. -/
theorem witness_stepRuns :
    (∃ s : State, s.hostActions = [.reset]) ∧
    (∃ s : State, s.hostActions = .memWrite 0x1C03#16 0x03#8 :: [.reset] ∧
      decode (OpWord.ofBytes s.opArg 0x03#8) = .ok .encode) ∧
    (0xFF06 < 65536 ∧ decodeTableWord 16 0xFF06 = some .fill) :=
  ⟨⟨{ State.reset with hostActions := [.reset] }, rfl⟩,
    ⟨{ State.reset with hostActions := [.memWrite 0x1C03#16 0x03#8, .reset] }, rfl, rfl⟩,
    by decide, rfl⟩

/-- StoppedHostLeavesLastState. -/
theorem witness_stoppedHost : State.reset.hostActions = [] := rfl

/-- ArgIgnoredWithoutOperand: both ends of the range, and a SHOW_IMAGE that answers a next state. -/
theorem witness_argIgnored : (3 ≤ (3#8).toNat ∧ (3#8).toNat ≤ 6) ∧ (3 ≤ (6#8).toNat ∧ (6#8).toNat ≤ 6) ∧
    ∃ t, issue 0x04#8 State.reset = .next t := ⟨by decide, by decide, _, rfl⟩

/-- ReservedWordRecordsConfigurationError: the three ends of the reserved ranges. -/
theorem witness_reserved : ((0x00#8).toNat = 0) ∧ (7 ≤ (0x07#8).toNat) ∧ (7 ≤ (0xFF#8).toNat) := by
  decide

/-- CommandBytesNameOneCommand: the largest page and column. -/
theorem witness_commandBytes : (5#16).toNat ≤ 5 ∧ (127#16).toNat ≤ 127 := by decide

/-- DecodingIsTotalAndUnambiguous, last clause: two words of one OPC. -/
theorem witness_sameOpc : OpWord.opc 0x0501#16 = OpWord.opc 0xFF01#16 := by decide

/-- SelectPageResult: each clause at its boundary. -/
theorem witness_selectPage : 5 < (6#8).toNat ∧ (5#8).toNat ≤ 5 ∧
    (withSink [.ok]).answerAt 0 (.cmd (0xB0#8 ||| 5#8)) = .ok ∧
    (withSink [.fault]).answerAt 0 (.cmd (0xB0#8 ||| 5#8)) = .fault := by decide +kernel

/-- SelectColumnResult: each clause at its boundary. -/
theorem witness_selectColumn : 127 < (128#8).toNat ∧ (127#8).toNat ≤ 127 ∧
    AllOk (withSink [.ok, .ok]) [.cmd 0x0F#8, .cmd 0x17#8] ∧
    FirstFault (withSink [.ok, .fault]) [.cmd 0x0F#8, .cmd 0x17#8] 1 (.cmd 0x17#8) :=
  ⟨by decide, by decide, allOk_of_queue (n := 2) (rest := []) rfl (by decide),
    firstFault_of_queue (k := 1) (rest := []) rfl rfl⟩

/-- AddressingTouchesOnlyOutAndErrors, UpdatesIgnoreEarlierAddressing: the operations exist and the
sink answers 28 transactions ok. -/
theorem witness_addressing : (∃ i : Instr, i = .selectPage 6#8 ∨ i = .selectColumn 6#8) ∧
    (∃ op : Instr, op = .showImage ∨ op = .clear ∨ op = .fill) ∧
    ∀ j tx, j < 28 → (withSink (List.replicate 28 .ok)).answerAt j tx = .ok :=
  ⟨⟨_, .inl rfl⟩, ⟨_, .inl rfl⟩, fun _ tx hj => answerAt_replicate rfl hj tx⟩

/-- EncodeResult, ShowImageResult: matching and mismatching dimensions. -/
theorem witness_dims : DimsOk State.reset ∧ ¬ DimsOk { State.reset with imgW := 127#8 } :=
  ⟨dimsOk_reset, fun h => absurd h.1 (by decide)⟩

/-- EncodeIndependentOfWriteOrder: stores in canonical form, an order of the writes, a second state
with the same image. -/
theorem witness_writeOrder : DimsOk State.reset ∧ Memory.wf 768 [(767, 1#8)] ∧
    (List.range 768).reverse.Perm (List.range 768) ∧
    ∀ a, a < 6144 → ({ State.reset with opArg := 1#8 }).pixByte a = State.reset.pixByte a :=
  ⟨dimsOk_reset, by simp [Memory.wf], List.reverse_perm _, fun _ _ => rfl⟩

/-- SinglePixelEncodesToOneBit: the bottom right pixel. -/
theorem witness_singlePixel : DimsOk (withImage (onePixel 47 127)) ∧ 47 < 48 ∧ 127 < 128 ∧
    ((withImage (onePixel 47 127)).pixByte (47 * 128 + 127)).toNat < 128 ∧
    ∀ a, a < 6144 → a ≠ 47 * 128 + 127 →
      128 ≤ ((withImage (onePixel 47 127)).pixByte a).toNat := by
  refine ⟨dimsOk_withImage _, by decide, by decide, ?_, ?_⟩
  · rw [pixByte_withImage _ (by decide)]; decide
  · intro a ha hne
    rw [pixByte_withImage _ ha, onePixel, if_neg hne]
    decide

/-- EncodePolarity, FillAndClearMatchUniformImages: an all-light and an all-dark image, and a bracket
whose display-off is answered ok. -/
theorem witness_polarity : DimsOk (withImage fun _ => 0x80#8) ∧
    (∀ a, a < 6144 → 128 ≤ ((withImage fun _ => 0x80#8).pixByte a).toNat) ∧
    (∀ a, a < 6144 → ((withImage fun _ => 0x7F#8).pixByte a).toNat < 128) ∧
    ({ withSink [.ok] with bracketClearFill := true }).answerAt 0 (.cmd 0xAE#8) = .ok :=
  ⟨dimsOk_withImage _, fun a ha => by rw [pixByte_withImage _ ha]; decide,
    fun a ha => by rw [pixByte_withImage _ ha]; decide, rfl⟩

/-- EveryFramebufferIsAnEncoding: two images alike up to the threshold and not equal. -/
theorem witness_sameThreshold : DimsOk (withImage fun _ => 0x00#8) ∧ DimsOk (withImage fun _ => 0x7F#8) ∧
    ∀ a, a < 6144 → dark ((withImage fun _ => 0x00#8).pixByte a) =
      dark ((withImage fun _ => 0x7F#8).pixByte a) :=
  ⟨dimsOk_withImage _, dimsOk_withImage _, fun a ha => by
    rw [pixByte_withImage _ ha, pixByte_withImage _ ha]; decide⟩

/-- ShowImageResult, ShowImageOutputTable: an image, every answer ok, and a first fault at the last
transaction. -/
theorem witness_showImage : DimsOk (withSink (List.replicate 26 .ok)) ∧
    (∀ fb, IsImageOf (withSink (List.replicate 26 .ok)) fb →
      AllOk (withSink (List.replicate 26 .ok)) (bracketedPlan fb)) ∧
    IsImageOf (withSink (List.replicate 26 .ok)) (fun i =>
      (withSink (List.replicate 26 .ok)).pack (i / 128) (i % 128)) ∧
    FirstFault (withSink (List.replicate 25 .ok ++ [.fault])) (bracketedPlan fun _ => 0x00#8) 25
      (.cmd 0xAF#8) :=
  ⟨⟨rfl, rfl⟩, fun fb _ => allOk_of_queue (n := 26) (rest := []) (by simp [withSink])
      (by simp [bracketedPlan]),
    isImageOf_pack _, firstFault_of_queue (k := 25) (rest := []) rfl rfl⟩

/-- ClearResult, FillResult: both values of the parameter, every answer ok, and a first fault. -/
theorem witness_updates (v : Byte) : (∀ b, AllOk { withSink (List.replicate 26 .ok) with bracketClearFill := b }
      (updatePlan b fun _ => v)) ∧
    FirstFault (withSink (List.replicate 7 .ok ++ [.fault])) (updatePlan false fun _ => v) 7
      (.data (pageBytes (fun _ => v) 1)) ∧
    FirstFault (withSink [.fault]) (updatePlan true fun _ => v) 0 (.cmd 0xAE#8) :=
  ⟨fun b => allOk_of_queue (n := 26) (rest := []) (by simp [withSink])
      (by cases b <;> simp [updatePlan, bracketedPlan]),
    firstFault_of_queue (k := 7) (rest := []) rfl rfl,
    firstFault_of_queue (k := 0) (rest := []) rfl rfl⟩

/-- ClearThenFillOutput: no bracket and 48 answers ok. -/
theorem witness_clearThenFill : (withSink (List.replicate 48 .ok)).bracketClearFill = false ∧
    AllOk (withSink (List.replicate 48 .ok))
      (streamPlan (fun _ => 0x00#8) ++ streamPlan (fun _ => 0xFF#8)) :=
  ⟨rfl, allOk_of_queue (n := 48) (rest := []) (by simp [withSink]) (by simp)⟩

/-- WrittenImageReachesOutput: a written image and 26 answers ok. -/
theorem witness_writtenImage :
    PixWritten (onePixel 0 0) (withImageAndSink (onePixel 0 0) (List.replicate 26 .ok)) ∧
    DimsOk (withImageAndSink (onePixel 0 0) (List.replicate 26 .ok)) ∧
    ∀ j tx, j < 26 →
      (withImageAndSink (onePixel 0 0) (List.replicate 26 .ok)).answerAt j tx = .ok :=
  ⟨fun a ha => by
      simp only [withImageAndSink, withImage]
      exact (Memory.lookup_map_range (onePixel 0 0) 6144 a).trans (if_pos ha),
    ⟨by simp only [withImageAndSink, withImage, State.reset],
      by simp only [withImageAndSink, withImage, State.reset]⟩,
    fun _ tx hj => answerAt_replicate (by simp only [withImageAndSink]) hj tx⟩

/-- EarlyErrorsLeaveFbAndOut: operations that end with KIND 1 and with KIND 2. -/
theorem witness_earlyErrors :
    (∃ t, perform (.memWrite 0x1C03#16 0x00#8) State.reset = .next t ∧
      kindField t.errStatus = 1#2) ∧
    (∃ t, perform (.memWrite 0x1C03#16 0x03#8) { State.reset with imgH := 47#8 } = .next t ∧
      kindField t.errStatus = 2#2) := ⟨⟨_, rfl, by decide⟩, ⟨_, rfl, by decide⟩⟩

/-- OperationFrame: an addressing operation. StickyAccumulatesUntilReset, OutOnlyGrowsByOperations,
FramebufferChangesWhole: an issue, another action, a Reset. -/
theorem witness_actions :
    (∃ t, perform (.memWrite 0x1C03#16 0x06#8) State.reset = .next t) ∧
    isIssue (.memWrite 0x1C03#16 0x06#8) = true ∧
    (∃ t, perform (.memWrite 0x1C02#16 0x06#8) State.reset = .next t) ∧
    isIssue (.memWrite 0x1C02#16 0x06#8) = false ∧ HostAction.memWrite 0x1C02#16 0x06#8 ≠ .reset ∧
    (∃ t, perform .reset State.reset = .next t) ∧ State.reset.sticky.toNat < 8 :=
  ⟨⟨_, rfl⟩, by decide, ⟨_, rfl⟩, by decide, by decide, ⟨_, rfl⟩, by decide⟩

/-- NoErrorRecordedExactlyWhenNoneFailed: a run whose operation fails. -/
theorem witness_noErrorRecorded :
    HostAction.reset ∉ [HostAction.memWrite 0x1C03#16 0x00#8] ∧ NoErrorRecorded State.reset ∧
    someOperationFails [.memWrite 0x1C03#16 0x00#8] State.reset :=
  ⟨by decide, rfl, .inl ⟨by decide, by decide⟩⟩

/-- HostReadFollowsMap, HostWriteFollowsMap, ReadReturnsLastWrite, HostWritesAreIdempotent: every range
at a boundary, both kinds of operation word, a read of another address. -/
theorem witness_hostMap :
    (0x17FF#16).toNat < 0x1800 ∧ (0x1800 ≤ (0x1AFF#16).toNat ∧ (0x1AFF#16).toNat < 0x1B00) ∧
    (0x1C00#16).toNat = 0x1C00 ∧ (0x1C01#16).toNat = 0x1C01 ∧ (0x1C02#16).toNat = 0x1C02 ∧
    (0x1C03#16).toNat = 0x1C03 ∧ (0x1C04#16).toNat = 0x1C04 ∧ (0x1C05#16).toNat = 0x1C05 ∧
    (0x1C06#16).toNat = 0x1C06 ∧
    decode (OpWord.ofBytes State.reset.opArg 0x05#8) = .ok .clear ∧
    decode (OpWord.ofBytes State.reset.opArg 0x07#8) = .error (.reservedOpcode 0x07#8) ∧
    Memory.wf 6144 State.reset.pix ∧ (0x1C00#16 : Addr) ≠ 0x17FF#16 ∧
    perform (.memRead 0x1C00#16) State.reset =
      .next { State.reset with readLog := State.reset.readLog ++ [0x80#8] } :=
  ⟨by decide, by decide, by decide, by decide, by decide, by decide, by decide, by decide, by decide,
    rfl, rfl, by simp [State.reset, Memory.wf], by decide, rfl⟩

/-- RefusedExactlyWhereTheMapSays: the ends of each range. -/
theorem witness_refused :
    (RefusedByMap (.memRead 0x1B00#16) ∧ RefusedByMap (.memRead 0x1BFF#16) ∧
      RefusedByMap (.memRead 0x1C07#16) ∧ RefusedByMap (.memWrite 0xFFFF#16 0#8)) ∧
    (RefusedByMap (.memWrite 0x1800#16 0#8) ∧ RefusedByMap (.memWrite 0x1AFF#16 0#8) ∧
      RefusedByMap (.memWrite 0x1C04#16 0#8) ∧ RefusedByMap (.memWrite 0x1C06#16 0#8)) ∧
    ¬ RefusedByMap (.memWrite 0x1C03#16 0#8) := by
  simp [RefusedByMap, Unmapped, ReadOnly]

/-- ParameterNeverChanges, StepKeepsInvariant: a step that answers a next state, from a state that
meets the invariant. -/
theorem witness_invariant :
    Inv { State.reset with hostActions := [.memWrite 0x1C03#16 0x00#8] } ∧
    ∃ t, step { State.reset with hostActions := [.memWrite 0x1C03#16 0x00#8] } = .next t := by
  refine ⟨?_, _, rfl⟩
  constructor <;> simp [State.reset, Memory.wf, InfoFits]

/-- MnemonicExpansionRunsOperation: both shapes of expansion. -/
theorem witness_mnemonic :
    (∃ s : State, s.hostActions = mnemonicActions (.selectPage 3#8) ++ []) ∧
    (∃ s : State, s.hostActions = mnemonicActions .fill ++ [.reset]) :=
  ⟨⟨{ State.reset with hostActions := mnemonicActions (.selectPage 3#8) ++ [] }, rfl⟩,
    ⟨{ State.reset with hostActions := mnemonicActions .fill ++ [.reset] }, rfl⟩⟩

/-- PseudoOperationsWriteWhatTheySay: the last pixel. -/
theorem witness_pixel : 47 < 48 ∧ 127 < 128 := by decide

end Sys2Proof.Tests
end

/-! ### Family 00_scope.md: a written image reaches the output port -/

namespace Sys2Proof.Proofs

open Sys2Proof.Machine Sys2Proof.Safety

/-- Whatever OP_ARG holds, OPC 0x04 issues SHOW_IMAGE (R48, R49, R50). -/
theorem issue_showImage (s : State) : issue 0x04#8 s = execShowImage s := by
  have hdec : decode (OpWord.ofBytes s.opArg 0x04#8) = .ok .showImage := by
    simp [decode, Laws.OpWord.opc_ofBytes]
  simp only [issue, hdec, exec]

/-- SHOW_IMAGE when the dimensions match and no transaction faults: the whole next state (R86). -/
theorem execShowImage_allOk {s : State} {fb : Nat → Byte} (hd : DimsOk s) (hf : IsImageOf s fb)
    (hok : AllOk s (bracketedPlan fb)) :
    execShowImage s =
      .next (succeeded (sent (s.setFb (fullFramebuffer fb)) (bracketedPlan fb))) := by
  rw [execShowImage_match hd hf, complete_bracketed_ok hok]

/-- A bracketed page stream is 26 transactions (R87). -/
@[simp] theorem bracketedPlan_length (fb : Nat → Byte) : (bracketedPlan fb).length = 26 := by
  simp [bracketedPlan]

/-- A sink that answers its next `n` transactions ok answers every plan of at most `n` ok. -/
theorem allOk_of_answers {s : State} {n : Nat} {txs : List Transaction}
    (h : ∀ j tx, j < n → s.answerAt j tx = .ok) (hlen : txs.length ≤ n) : AllOk s txs := by
  intro j tx hj
  obtain ⟨hlt, -⟩ := List.getElem?_eq_some_iff.1 hj
  exact h j tx (by omega)

/-- A written PIX reads as the image the host wrote, whatever was drawn at reset (R30, R118). -/
theorem pixByte_of_pixWritten {s : State} {img : Nat → Byte} (h : PixWritten img s) {a : Nat}
    (ha : a < 6144) : s.pixByte a = img a := by
  simp [State.pixByte, h a ha]

/-- The image in PIX by pixel: row r, column c is bit r % 8 of byte (r/8)*128 + c (R17, R76). -/
theorem isImageOf_pixel {s : State} {fb : Nat → Byte} (hf : IsImageOf s fb) {r c : Nat}
    (hr : r < 48) (hc : c < 128) :
    (fb (r / 8 * 128 + c)).getLsbD (r % 8) = dark (s.pixByte (r * 128 + c)) := by
  have hrow : r / 8 * 8 + r % 8 = r := Nat.div_add_mod' r 8
  have hbit := hf (r / 8) c (r % 8) (by omega) hc (Nat.mod_lt r (by decide))
  rwa [hrow] at hbit

/-- Settles O30: the host's write issues SHOW_IMAGE, whose bracketed plan is all answered ok, and the
plan's payload is the framebuffer in order, which holds the image in PIX. -/
theorem writtenImageReachesOutput : Obligations.WrittenImageReachesOutput := by
  intro s img hpix hdims hans
  obtain ⟨fb, hf⟩ : ∃ fb, IsImageOf s fb := ⟨_, isImageOf_pack s⟩
  have hok : AllOk s (bracketedPlan fb) := allOk_of_answers hans (bracketedPlan_length fb).le
  have hrun := execShowImage_allOk hdims hf hok
  rw [← issue_showImage, ← perform_opIssue] at hrun
  have hpay := payload_bracketedPlan fb
  refine ⟨_, bracketedPlan fb, hrun, rfl, rfl, rfl, by simp [hpay], fun r c hr hc => ?_⟩
  have hi : r / 8 * 128 + c < 768 := by omega
  refine ⟨fb (r / 8 * 128 + c), by simp [hpay, hi], ?_⟩
  rw [isImageOf_pixel hf hr hc, pixByte_of_pixWritten hpix (by omega)]

end Sys2Proof.Proofs

/-! ### Family 10_state.md: what an operation and a host access can change, and the invariant -/

namespace Sys2Proof.Proofs

open Sys2Proof.Machine Sys2Proof.Safety

/-! #### How an issued operation ends -/

/-- The ERR_STATUS, ERR_INFO and STICKY flag of an error raised before anything else happens: the
causes 1 to 4 of R94 (R95). -/
inductive EarlyError : Byte → Byte → Byte → Prop where
  | reservedOp {info : Byte} (h : info.toNat = 0 ∨ 7 ≤ info.toNat) : EarlyError 0x11#8 info 0x01#8
  | pageRange {info : Byte} (h : 5 < info.toNat) : EarlyError 0x12#8 info 0x01#8
  | columnRange {info : Byte} (h : 127 < info.toNat) : EarlyError 0x13#8 info 0x01#8
  | dimMismatch {info : Byte} (h : 1 ≤ info.toNat ∧ info.toNat ≤ 3) :
      EarlyError 0x24#8 info 0x02#8

/-- The framebuffer `m` is the one of `s`, or one written whole (R30). -/
def FbKeptOrFull (s : State) (m : Memory) : Prop := m = s.fb ∨ ∃ f, m = fullFramebuffer f

/-- The three ways an operation issued in `s` ends (R95 to R97, R102): turned away, run to its end, or
stopped by the first transaction the sink faults. -/
inductive Ending (s : State) : State → Prop where
  | turnedAway {status info flag : Byte} (h : EarlyError status info flag) :
      Ending s (failed s status info flag)
  | ranToEnd {m : Memory} {txs : List Transaction} (hm : FbKeptOrFull s m)
      (htxs : ∀ tx ∈ txs, emittable tx) : Ending s (succeeded (sent (withFb s m) txs))
  | faulted {m : Memory} {txs : List Transaction} {tx : Transaction} (hm : FbKeptOrFull s m)
      (htxs : ∀ tx ∈ txs, emittable tx) (htx : emittable tx) (hlen : txs.length ≤ 25) :
      Ending s (failed (sentThenFault (withFb s m) txs tx) 0x35#8 (BitVec.ofNat 8 txs.length) 0x04#8)

theorem Ending.of_ran {w e : Bool} {s t : State} (h : Ran w e s t) : Ending s t := by
  obtain ⟨m, plan, hlen, hplan, hm, -, hend⟩ := h
  have hm : FbKeptOrFull s m := hm.imp_right And.right
  rcases hend with rfl | ⟨k, tx, hk, rfl⟩
  · exact .ranToEnd hm hplan
  · obtain ⟨hlt, -⟩ := List.getElem?_eq_some_iff.1 hk
    have hkl : (plan.take k).length = k := List.length_take_of_le hlt.le
    have hend := Ending.faulted (s := s) (txs := plan.take k) hm
      (fun tx htx => hplan tx (List.mem_of_mem_take htx)) (hplan tx (List.mem_of_getElem? hk))
      (by omega)
    rwa [hkl] at hend

/-- An operation is turned away by its own check, or runs. -/
theorem exec_turnedAway_or_ran {i : Instr} {s t : State} (h : exec i s = .next t) :
    (∃ status info flag, EarlyError status info flag ∧ t = failed s status info flag) ∨
      Ran (writesFb i) (sends i) s t := by
  obtain ⟨t', ht', hc⟩ := exec_cases i s
  obtain rfl : t' = t := by rw [ht'] at h; injection h
  rcases hc with ⟨arg, -, ha, rfl⟩ | ⟨arg, -, ha, rfl⟩ | ⟨-, hd, rfl⟩ | hran
  · exact .inl ⟨_, _, _, .pageRange ha, rfl⟩
  · exact .inl ⟨_, _, _, .columnRange ha, rfl⟩
  · exact .inl ⟨_, _, _, .dimMismatch (dimInfo_range s hd), rfl⟩
  · exact .inr hran

theorem exec_ending {i : Instr} {s t : State} (h : exec i s = .next t) : Ending s t := by
  rcases exec_turnedAway_or_ran h with ⟨status, info, flag, he, rfl⟩ | hran
  · exact .turnedAway he
  · exact .of_ran hran

theorem issue_ending {opc : Byte} {s t : State} (h : issue opc s = .next t) : Ending s t := by
  obtain ⟨t', ht', hc⟩ := issue_cases opc s
  obtain rfl : t' = t := by rw [ht'] at h; injection h
  rcases hc with ⟨rfl, hopc⟩ | ⟨i, -, hi⟩
  · exact .turnedAway (.reservedOp hopc)
  · exact exec_ending hi

/-! #### What an operation leaves, field by field -/

/-- The state no operation changes (R15, R19, R20, R28). -/
structure OperationKeeps (s t : State) : Prop where
  pix : t.pix = s.pix
  imgW : t.imgW = s.imgW
  imgH : t.imgH = s.imgH
  opArg : t.opArg = s.opArg
  bracketClearFill : t.bracketClearFill = s.bracketClearFill
  resetCount : t.resetCount = s.resetCount
  hostActions : t.hostActions = s.hostActions
  readLog : t.readLog = s.readLog

theorem Ending.keeps {s t : State} (h : Ending s t) : OperationKeeps s t := by
  cases h <;> exact ⟨rfl, rfl, rfl, rfl, rfl, rfl, rfl, rfl⟩

theorem Ending.fb {s t : State} (h : Ending s t) : FbKeptOrFull s t.fb := by
  cases h with
  | turnedAway _ => exact .inl rfl
  | ranToEnd hm _ => exact hm
  | faulted hm _ _ _ => exact hm

theorem EarlyError.infoFits {status info flag : Byte} (h : EarlyError status info flag) :
    InfoFits status info := by
  cases h with
  | reservedOp h => exact .inr (.inl ⟨rfl, h⟩)
  | pageRange h => exact .inr (.inr (.inl ⟨rfl, h⟩))
  | columnRange h => exact .inr (.inr (.inr (.inl ⟨rfl, h⟩)))
  | dimMismatch h => exact .inr (.inr (.inr (.inr (.inl ⟨rfl, h⟩))))

/-- ERR_INFO fits ERR_STATUS after every operation, whatever the registers held before (R94, R96,
R97). -/
theorem Ending.infoFits {s t : State} (h : Ending s t) : InfoFits t.errStatus t.errInfo := by
  cases h with
  | turnedAway he => exact he.infoFits
  | ranToEnd _ _ => exact .inl ⟨rfl, rfl⟩
  | faulted _ _ _ hlen =>
    refine .inr (.inr (.inr (.inr (.inr ⟨rfl, ?_⟩))))
    simp only [failed, BitVec.toNat_ofNat]
    omega

theorem EarlyError.status_ne_zero {status info flag : Byte} (h : EarlyError status info flag) :
    status ≠ 0x00#8 := by
  cases h <;> decide

theorem EarlyError.status_ne_transport {status info flag : Byte} (h : EarlyError status info flag) :
    status ≠ 0x35#8 := by
  cases h <;> decide

theorem EarlyError.flag_of_kind {status info flag : Byte} (h : EarlyError status info flag) :
    flag = 1#8 <<< ((kindField status).toNat - 1) := by
  cases h <;> decide

theorem EarlyError.flag_not_transport {status info flag : Byte} (h : EarlyError status info flag) :
    flag[2] = false := by
  cases h <;> decide

theorem failed_sticky (s : State) {status info flag : Byte} (hs : status ≠ 0x00#8)
    (hf : flag = 1#8 <<< ((kindField status).toNat - 1)) :
    (failed s status info flag).sticky = if (failed s status info flag).errStatus = 0x00#8
      then s.sticky
      else s.sticky ||| (1#8 <<< ((kindField (failed s status info flag).errStatus).toNat - 1)) := by
  subst hf
  exact (if_neg hs).symm

/-- The flag of the recorded KIND is the one ORed into STICKY (R24, R96). -/
theorem Ending.sticky {s t : State} (h : Ending s t) :
    t.sticky = if t.errStatus = 0x00#8 then s.sticky
      else s.sticky ||| (1#8 <<< ((kindField t.errStatus).toNat - 1)) := by
  cases h with
  | turnedAway he => exact failed_sticky s he.status_ne_zero he.flag_of_kind
  | ranToEnd _ _ => rfl
  | faulted _ _ _ _ => exact failed_sticky _ (by decide) (by decide)

/-- Only a recorded transport fault sets TRANSPORT_SEEN (R24, R102). -/
theorem Ending.transportSeen {s t : State} (h : Ending s t) :
    t.sticky.getLsbD 2 = true ↔ s.sticky.getLsbD 2 = true ∨ t.errStatus = 0x35#8 := by
  cases h with
  | turnedAway he => simp [failed, he.status_ne_transport, he.flag_not_transport]
  | ranToEnd _ _ => simp [succeeded, sent, withFb]
  | faulted _ _ _ _ => simp [failed]

/-- What the entries an operation adds to OUT satisfy: each is emittable, and a faulted one is there,
as the last, exactly when `status` records a transport fault (R60 to R62, R102). -/
structure NewEntries (status : Byte) (new : List (Transaction × SinkAnswer)) : Prop where
  emittable : ∀ e ∈ new, emittable e.1
  faulted_iff : (∃ e ∈ new, e.2 = .fault) ↔ status = 0x35#8
  last_of_faulted : status = 0x35#8 → ∃ tx, new.getLast? = some (tx, .fault)

theorem newEntries_ok {status : Byte} {txs : List Transaction} (hs : status ≠ 0x35#8)
    (htxs : ∀ tx ∈ txs, emittable tx) : NewEntries status (txs.map fun tx => (tx, .ok)) where
  emittable := by simpa using htxs
  faulted_iff := by simp [hs]
  last_of_faulted h := absurd h hs

theorem newEntries_fault {txs : List Transaction} {tx : Transaction}
    (htxs : ∀ tx ∈ txs, emittable tx) (htx : emittable tx) :
    NewEntries 0x35#8 ((txs.map fun tx => (tx, .ok)) ++ [(tx, .fault)]) where
  emittable e he := by
    rcases List.mem_append.1 he with he | he
    · obtain ⟨tx', htx', rfl⟩ := List.mem_map.1 he
      exact htxs tx' htx'
    · rw [List.mem_singleton.1 he]; exact htx
  faulted_iff := by simp
  last_of_faulted _ := ⟨tx, List.getLast?_concat⟩

theorem Ending.out {s t : State} (h : Ending s t) :
    ∃ new, t.out = s.out ++ new ∧ NewEntries t.errStatus new := by
  cases h with
  | turnedAway he =>
    exact ⟨[], (List.append_nil _).symm,
      newEntries_ok (txs := []) he.status_ne_transport (by simp)⟩
  | ranToEnd _ htxs => exact ⟨_, rfl, newEntries_ok (by simp [succeeded]) htxs⟩
  | faulted _ htxs htx _ => exact ⟨_, List.append_assoc _ _ _, newEntries_fault htxs htx⟩

/-! #### What a host action does -/

/-- A host action that is neither an issue nor a Reset: the block changes in PIX, IMG_W, IMG_H and
OP_ARG at most, PIX by one write within its addresses (R31, R33, R34). -/
structure HostAccess (a : HostAction) (s t : State) : Prop where
  notIssue : isIssue a = false
  notReset : a ≠ .reset
  pix : t.pix = s.pix ∨ ∃ addr v, a = .memWrite addr v ∧ addr.toNat < 6144 ∧
    t.pix = Memory.write s.pix addr.toNat v
  fb : t.fb = s.fb
  errStatus : t.errStatus = s.errStatus
  errInfo : t.errInfo = s.errInfo
  sticky : t.sticky = s.sticky
  out : t.out = s.out
  bracketClearFill : t.bracketClearFill = s.bracketClearFill
  resetCount : t.resetCount = s.resetCount

/-- The three kinds of host action that have a next state: an issue, a Reset, an access. -/
theorem perform_kinds {a : HostAction} {s t : State} (h : perform a s = .next t) :
    (isIssue a = true ∧ a ≠ .reset ∧ Ending s t) ∨ (a = .reset ∧ t = s.blockReset) ∨
      HostAccess a s t := by
  rcases perform_cases h with ⟨v, rfl, hi⟩ | hr | ⟨addr, v, rfl, -, rfl⟩ | ⟨addr, v, rfl, ha, rfl⟩ |
    ⟨v, rfl, rfl⟩ | ⟨v, rfl, rfl⟩ | ⟨v, rfl, rfl⟩
  · exact .inl ⟨rfl, nofun, issue_ending hi⟩
  · exact .inr (.inl hr)
  · exact .inr (.inr ⟨rfl, nofun, .inl rfl, rfl, rfl, rfl, rfl, rfl, rfl, rfl⟩)
  · have hne : addr ≠ 0x1C03#16 := by rintro rfl; exact absurd ha (by decide)
    exact .inr (.inr ⟨decide_eq_false hne, nofun, .inr ⟨addr, v, rfl, ha, rfl⟩,
      rfl, rfl, rfl, rfl, rfl, rfl, rfl⟩)
  all_goals exact .inr (.inr ⟨rfl, nofun, .inl rfl, rfl, rfl, rfl, rfl, rfl, rfl, rfl⟩)

/-- A host access changes a PIX byte by a write to its address alone (R34). -/
theorem HostAccess.pixByte {a : HostAction} {s t : State} (h : HostAccess a s t) {n : Nat}
    (hn : ∀ v, a ≠ .memWrite (BitVec.ofNat 16 n) v) : t.pixByte n = s.pixByte n := by
  rcases h.pix with hp | ⟨addr, v, rfl, -, hp⟩
  · exact State.pixByte_congr hp h.resetCount n
  · have hne : n ≠ addr.toNat := by
      rintro rfl
      exact hn v (by rw [BitVec.ofNat_toNat, BitVec.setWidth_eq])
    exact (State.pixByte_congr (s := s.writePix addr.toNat v) hp h.resetCount n).trans
      (State.pixByte_writePix_other s v hne)

theorem HostAccess.pixWf {a : HostAction} {s t : State} (h : HostAccess a s t)
    (hs : Memory.wf 6144 s.pix) : Memory.wf 6144 t.pix := by
  rcases h.pix with hp | ⟨addr, v, -, ha, hp⟩
  · rwa [hp]
  · rw [hp]; exact Memory.write_wf v hs ha

theorem perform_bracketClearFill {a : HostAction} {s t : State} (h : perform a s = .next t) :
    t.bracketClearFill = s.bracketClearFill := by
  rcases perform_kinds h with ⟨-, -, he⟩ | ⟨-, rfl⟩ | hacc
  · exact he.keeps.bracketClearFill
  · rfl
  · exact hacc.bracketClearFill

/-! #### STICKY's bits -/

/-- A KIND's flag lies in bits 2:0 (R24). -/
theorem kindFlag_lt_eight (kind : BitVec 2) : (1#8 <<< (kind.toNat - 1)).toNat < 8 := by
  revert kind; decide

theorem getLsbD_kindFlag (kind : BitVec 2) :
    (1#8 <<< (kind.toNat - 1)).getLsbD (kind.toNat - 1) = true := by
  revert kind; decide

theorem Ending.sticky_lt_eight {s t : State} (h : Ending s t) (hs : s.sticky.toNat < 8) :
    t.sticky.toNat < 8 := by
  rw [h.sticky]
  split
  · exact hs
  · rw [BitVec.toNat_or]
    exact Nat.or_lt_two_pow (n := 3) hs (kindFlag_lt_eight _)

theorem Ending.sticky_covers {s t : State} (h : Ending s t) (ht : t.errStatus ≠ 0x00#8) :
    t.sticky.getLsbD ((kindField t.errStatus).toNat - 1) = true := by
  rw [h.sticky, if_neg ht, BitVec.getLsbD_or, getLsbD_kindFlag, Bool.or_true]

/-! #### The invariant -/

theorem fullFramebuffer_written (f : Nat → Byte) {i : Nat} (hi : i < 768) :
    Memory.lookup (fullFramebuffer f) i = some (f i) := by
  rw [fullFramebuffer_lookup, if_pos hi]

theorem inv_of_ending {s t : State} (hs : Inv s) (h : Ending s t) : Inv t := by
  obtain ⟨new, hout, hnew⟩ := h.out
  refine ⟨?pixWf, ?fbWf, ?fbWhole, h.infoFits, h.sticky_lt_eight hs.stickyReserved,
    h.sticky_covers, ?outEmittable, ?transportSeen, ?lastFaulted⟩
  case pixWf => rw [h.keeps.pix]; exact hs.pixWf
  case fbWf =>
    rcases h.fb with hm | ⟨f, hm⟩
    · rw [hm]; exact hs.fbWf
    · rw [hm]; exact fullFramebuffer_wf f
  case fbWhole =>
    rcases h.fb with hm | ⟨f, hm⟩
    · rw [hm]; exact hs.fbWhole
    · refine .inr fun i hi => ?_
      rw [hm, fullFramebuffer_written f hi]
      exact Option.some_ne_none _
  case outEmittable =>
    intro e he
    rw [hout] at he
    exact (List.mem_append.1 he).elim (hs.outEmittable e) (hnew.emittable e)
  case transportSeen =>
    rw [h.transportSeen, hs.transportSeen, ← hnew.faulted_iff, hout]
    simp only [List.mem_append, or_and_right, exists_or]
  case lastFaulted =>
    intro hst
    obtain ⟨tx, hlast⟩ := hnew.last_of_faulted hst
    exact ⟨tx, by rw [hout, List.getLast?_append, hlast, Option.some_or]⟩

/-- The invariant speaks of PIX, FB, the error registers and OUT alone. -/
theorem inv_congr {s t : State} (hs : Inv s) (hpix : Memory.wf 6144 t.pix) (hfb : t.fb = s.fb)
    (hstatus : t.errStatus = s.errStatus) (hinfo : t.errInfo = s.errInfo)
    (hsticky : t.sticky = s.sticky) (hout : t.out = s.out) : Inv t := by
  obtain ⟨-, h1, h2, h3, h4, h5, h6, h7, h8⟩ := hs
  rw [← hfb] at h1 h2
  rw [← hstatus, ← hinfo] at h3
  rw [← hsticky] at h4
  rw [← hstatus, ← hsticky] at h5
  rw [← hout] at h6
  rw [← hsticky, ← hout] at h7
  rw [← hstatus, ← hout] at h8
  exact ⟨hpix, h1, h2, h3, h4, h5, h6, h7, h8⟩

/-- A launch state with nothing written yet meets the invariant (R29, R107, R118). -/
theorem inv_of_cleanLaunch {s : State} (h : CleanLaunch s) (hpix : s.pix = []) (hfb : s.fb = []) :
    Inv s := by
  obtain ⟨-, -, -, hstatus, hinfo, hsticky, hout⟩ := h
  constructor <;> simp [hpix, hfb, hstatus, hinfo, hsticky, hout, InfoFits, Memory.wf]

theorem cleanLaunch_reset : CleanLaunch State.reset := ⟨rfl, rfl, rfl, rfl, rfl, rfl, rfl⟩

theorem cleanLaunch_blockReset (s : State) : CleanLaunch s.blockReset :=
  ⟨rfl, rfl, rfl, rfl, rfl, rfl, rfl⟩

theorem perform_inv {a : HostAction} {s t : State} (hs : Inv s) (h : perform a s = .next t) :
    Inv t := by
  rcases perform_kinds h with ⟨-, -, he⟩ | ⟨-, rfl⟩ | hacc
  · exact inv_of_ending hs he
  · exact inv_of_cleanLaunch (cleanLaunch_blockReset s) rfl rfl
  · exact inv_congr hs (hacc.pixWf hs.pixWf) hacc.fb hacc.errStatus hacc.errInfo hacc.sticky hacc.out

/-- Settles O49: a step performs one host action (or nothing), and each of the three kinds of host
action keeps the invariant. -/
theorem stepKeepsInvariant : Obligations.StepKeepsInvariant := by
  intro s t hs h
  rcases step_cases h with ⟨-, rfl⟩ | ⟨a, rest, -, hp⟩
  · exact hs
  · exact perform_inv (s := { s with hostActions := rest })
      (inv_congr hs hs.pixWf rfl rfl rfl rfl rfl) hp

/-- Settles O48: reset is a launch state with nothing written yet. -/
theorem resetMeetsInvariant : Obligations.ResetMeetsInvariant :=
  inv_of_cleanLaunch cleanLaunch_reset rfl rfl

/-! #### Reset, the frame of operations, STICKY, OUT, FB and the parameter -/

/-- Settles O1: reset is a launch state, its stores are unwritten and read as their draws; an operation
keeps PIX, and a host access keeps FB and every PIX byte it does not write. -/
theorem resetStateAndFreeDraws : Obligations.ResetStateAndFreeDraws := by
  refine ⟨cleanLaunch_reset, fun _ _ => rfl, fun _ _ => rfl, ?_, ?_⟩
  · intro s t act a _ h hreset hwrite
    rcases perform_kinds h with ⟨-, -, he⟩ | ⟨hr, -⟩ | hacc
    · exact State.pixByte_congr he.keeps.pix he.keeps.resetCount a
    · exact absurd hr hreset
    · exact hacc.pixByte hwrite
  · intro s t act i _ h hreset hissue
    rcases perform_kinds h with ⟨hi, -, -⟩ | ⟨hr, -⟩ | hacc
    · rw [hissue] at hi; cases hi
    · exact absurd hr hreset
    · exact State.fbByte_congr hacc.fb hacc.resetCount i

theorem fb_of_ran {e : Bool} {s t : State} (h : Ran false e s t) : t.fb = s.fb := by
  obtain ⟨m, plan, -, -, hm, -, hend⟩ := h
  have hm : m = s.fb := hm.resolve_right (by simp)
  rcases hend with rfl | ⟨k, tx, -, rfl⟩ <;> exact hm

theorem out_of_ran {w : Bool} {s t : State} (h : Ran w false s t) :
    t.out = s.out ∧ t.sinkAnswers = s.sinkAnswers ∧ t.sinkDraws = s.sinkDraws := by
  obtain ⟨m, plan, -, -, -, hplan, hend⟩ := h
  obtain rfl : plan = [] := hplan.resolve_right (by simp)
  rcases hend with rfl | ⟨k, tx, hk, -⟩
  · rw [sent_nil]; exact ⟨rfl, rfl, rfl⟩
  · simp at hk

theorem exec_fb_of_not_writesFb {i : Instr} {s t : State} (h : exec i s = .next t)
    (hw : writesFb i = false) : t.fb = s.fb := by
  rcases exec_turnedAway_or_ran h with ⟨status, info, flag, -, rfl⟩ | hran
  · rfl
  · rw [hw] at hran; exact fb_of_ran hran

theorem exec_out_of_not_sends {i : Instr} {s t : State} (h : exec i s = .next t)
    (hs : sends i = false) :
    t.out = s.out ∧ t.sinkAnswers = s.sinkAnswers ∧ t.sinkDraws = s.sinkDraws := by
  rcases exec_turnedAway_or_ran h with ⟨status, info, flag, -, rfl⟩ | hran
  · exact ⟨rfl, rfl, rfl⟩
  · rw [hs] at hran; exact out_of_ran hran

/-- Settles O34: what every ending keeps, and what the operations that do not write FB or do not send
keep beside it. -/
theorem operationFrame : Obligations.OperationFrame := by
  intro i s
  obtain ⟨t, ht, -⟩ := exec_cases i s
  have hk := (exec_ending ht).keeps
  refine ⟨t, ht, hk.pix, hk.imgW, hk.imgH, hk.opArg, hk.bracketClearFill, hk.resetCount,
    hk.hostActions, hk.readLog, State.pixByte_congr hk.pix hk.resetCount, ?_, ?_⟩
  · intro arg hi
    have hw : writesFb i = false := by rcases hi with rfl | rfl <;> rfl
    exact State.fbByte_congr (exec_fb_of_not_writesFb ht hw) hk.resetCount
  · rintro rfl
    exact exec_out_of_not_sends ht rfl

/-- Settles O35: by the kind of host action; an operation ORs in the flag of the KIND it records. -/
theorem stickyAccumulatesUntilReset : Obligations.StickyAccumulatesUntilReset := by
  intro a s t h
  rcases perform_kinds h with ⟨hi, hne, he⟩ | ⟨rfl, rfl⟩ | hacc
  · exact ⟨fun _ => he.sticky, fun hf => absurd hf (by simp [hi]),
      fun hr => absurd hr hne, he.sticky_lt_eight⟩
  · exact ⟨nofun, fun _ hne => absurd rfl hne, fun _ => rfl, fun _ => by simp⟩
  · exact ⟨fun hi => absurd hi (by simp [hacc.notIssue]), fun _ _ => hacc.sticky,
      fun hr => absurd hr hacc.notReset, fun hs => by rwa [hacc.sticky]⟩

/-- Settles O43: by the kind of host action; an operation appends its entries to OUT. -/
theorem outOnlyGrowsByOperations : Obligations.OutOnlyGrowsByOperations := by
  intro a s t h
  rcases perform_kinds h with ⟨hi, hne, he⟩ | ⟨rfl, rfl⟩ | hacc
  · obtain ⟨new, hout, -⟩ := he.out
    exact ⟨fun hr => absurd hr hne, fun _ => ⟨new, hout, fun hf => absurd hf (by simp [hi])⟩⟩
  · exact ⟨fun _ => rfl, fun hne => absurd rfl hne⟩
  · exact ⟨fun hr => absurd hr hacc.notReset, fun _ => ⟨[], by simp [hacc.out], fun _ => rfl⟩⟩

/-- Settles O44: by the kind of host action; an operation keeps FB or leaves a full framebuffer. -/
theorem framebufferChangesWhole : Obligations.FramebufferChangesWhole := by
  intro a s t h hne
  rcases perform_kinds h with ⟨hi, -, he⟩ | ⟨hr, -⟩ | hacc
  · rcases he.fb with hfb | ⟨f, hfb⟩
    · exact .inl hfb
    · exact .inr ⟨hi, fun i hlt => ⟨f i, by rw [hfb, fullFramebuffer_written f hlt]⟩⟩
  · exact absurd hr hne
  · exact .inl hacc.fb

/-- Settles O45: a step performs one host action (or nothing), and none changes the parameter. -/
theorem parameterNeverChanges : Obligations.ParameterNeverChanges := by
  intro s t h
  rcases step_cases h with ⟨-, rfl⟩ | ⟨a, rest, -, hp⟩
  · rfl
  · exact perform_bracketClearFill (s := { s with hostActions := rest }) hp

/-! #### The step and the decoder -/

theorem step_of_hostActions_cons {s : State} {a : HostAction} {rest : List HostAction}
    (h : s.hostActions = a :: rest) : step s = perform a { s with hostActions := rest } := by
  simp only [step, performNext, h]

theorem issue_of_decode {opc : Byte} {s : State} {i : Instr}
    (h : decode (OpWord.ofBytes s.opArg opc) = .ok i) : issue opc s = exec i s := by
  simp only [issue, h]

/-- The table's reading of a 16-bit number is the decoding of its two bytes (R46, R52). -/
theorem decode_of_decodeTableWord {w : Nat} {i : Instr} (hw : w < 65536)
    (h : decodeTableWord 16 w = some i) :
    decode (OpWord.ofBytes (BitVec.ofNat 8 (w / 256)) (BitVec.ofNat 8 w)) = .ok i := by
  simp only [decodeTableWord, Nat.mod_eq_of_lt (show w < 2 ^ 16 from hw), if_pos hw, decodeBytes] at h
  cases hd : decode (OpWord.ofBytes (BitVec.ofNat 8 (w / 256)) (BitVec.ofNat 8 w)) with
  | ok j => simpa [hd] using h
  | error e => simp [hd] at h

/-- Settles O3: a step performs the first action of the host's list, a write to OP_ISSUE issues, and an
issue runs the operation its word decodes to. -/
theorem stepRunsDecodedOperation : Obligations.StepRunsDecodedOperation := by
  refine ⟨fun s a rest => step_of_hostActions_cons, ?_, ?_⟩
  · intro s v rest i hacts hdec
    rw [step_of_hostActions_cons hacts, perform_opIssue]
    exact issue_of_decode hdec
  · intro s w i hw hdec
    have hmod : w % 2 ^ 16 = w := Nat.mod_eq_of_lt hw
    rw [State.withFetchWord, hmod, State.placeWord, step_of_hostActions_cons rfl]
    exact (perform_opIssue _ _).trans (issue_of_decode (decode_of_decodeTableWord hw hdec))

end Sys2Proof.Proofs

/-! ### Family 20_memory.md: what a host access answers at every address of the map -/

namespace Sys2Proof.Proofs

open Sys2Proof.Machine Sys2Proof.Safety

/-! #### The map, mapped addresses and stored ones -/

/-- The host address a location is mapped at (R32): what `locationOf` forgets at unmapped addresses
alone. -/
def hostAddress : Location → Option Nat
  | .pix a => some a
  | .fb i => some (0x1800 + i)
  | .imgW => some 0x1C00
  | .imgH => some 0x1C01
  | .opArg => some 0x1C02
  | .opIssue => some 0x1C03
  | .errStatus => some 0x1C04
  | .errInfo => some 0x1C05
  | .sticky => some 0x1C06
  | .unmapped => none

/-- The addresses at which a write stores its byte and does nothing else: PIX, IMG_W, IMG_H and OP_ARG
(R34). -/
def Stored (addr : Addr) : Prop :=
  addr.toNat < 0x1800 ∨ (0x1C00 ≤ addr.toNat ∧ addr.toNat ≤ 0x1C02)

theorem addr_eq_ofNat {addr : Addr} {n : Nat} (h : addr.toNat = n) : addr = BitVec.ofNat 16 n := by
  rw [← h, BitVec.ofNat_toNat, BitVec.setWidth_eq]

theorem locationOf_unmapped {addr : Addr} (h : Unmapped addr) : locationOf addr = .unmapped :=
  h.elim (fun h => locationOf_hole h.1 h.2) locationOf_above

theorem hostAddress_locationOf {addr : Addr} (h : ¬ Unmapped addr) :
    hostAddress (locationOf addr) = some addr.toNat := by
  rcases addr_ranges addr with hr | hr | hr | hr | hr
  · rw [locationOf_pix hr]; rfl
  · rw [locationOf_fb hr.1 hr.2]; exact congrArg some (Nat.add_sub_cancel' hr.1)
  · exact absurd (.inl hr) h
  · rcases locationOf_register hr.1 hr.2 with ⟨rfl, hl⟩ | ⟨rfl, hl⟩ | ⟨rfl, hl⟩ | ⟨rfl, hl⟩ |
      ⟨rfl, hl⟩ | ⟨rfl, hl⟩ | ⟨rfl, hl⟩ <;> rw [hl] <;> rfl
  · exact absurd (.inr hr) h

theorem locationOf_eq_unmapped_iff {addr : Addr} : locationOf addr = .unmapped ↔ Unmapped addr := by
  refine ⟨fun hl => by_contra fun h => ?_, locationOf_unmapped⟩
  have ha := hostAddress_locationOf h
  rw [hl] at ha
  cases ha

/-- Two addresses share a location only where they are unmapped. -/
theorem locationOf_ne {a b : Addr} (hab : a ≠ b) (hb : ¬ Unmapped b) :
    locationOf a ≠ locationOf b := by
  intro hl
  have ha : ¬ Unmapped a := by rwa [← locationOf_eq_unmapped_iff, hl, locationOf_eq_unmapped_iff]
  have heq : some a.toNat = some b.toNat := by
    rw [← hostAddress_locationOf ha, ← hostAddress_locationOf hb, hl]
  exact hab (BitVec.eq_of_toNat_eq (Option.some.inj heq))

theorem Stored.not_unmapped {addr : Addr} (h : Stored addr) : ¬ Unmapped addr := by
  unfold Stored at h; unfold Unmapped; omega

theorem Stored.not_readOnly {addr : Addr} (h : Stored addr) : ¬ ReadOnly addr := by
  unfold Stored at h; unfold ReadOnly; omega

theorem Stored.cases {addr : Addr} (h : Stored addr) :
    addr.toNat < 0x1800 ∨ addr = 0x1C00#16 ∨ addr = 0x1C01#16 ∨ addr = 0x1C02#16 := by
  unfold Stored at h; bv_omega

/-- What a write finds at an address (R34, R35): nothing, a read-only byte, a stored byte, OP_ISSUE. -/
theorem addr_write_classes (addr : Addr) :
    Unmapped addr ∨ ReadOnly addr ∨ Stored addr ∨ addr = 0x1C03#16 := by
  unfold Unmapped ReadOnly Stored; bv_omega

/-! #### Reads -/

theorem perform_memRead_eq_next_iff {addr : Addr} {s : State} {v : Byte} :
    perform (.memRead addr) s = .next { s with readLog := s.readLog ++ [v] } ↔
      s.readLocation (locationOf addr) = some v := by
  simp only [perform, hostRead]
  cases s.readLocation (locationOf addr) <;> simp

theorem readLocation_eq_none_iff {s : State} {l : Location} :
    s.readLocation l = none ↔ l = .unmapped := by
  cases l <;> simp [State.readLocation]

theorem perform_memRead_unmapped {addr : Addr} (s : State) (h : Unmapped addr) :
    perform (.memRead addr) s = .refused (.unmappedRead addr) := by
  simp only [perform, hostRead, locationOf_unmapped h, State.readLocation]

theorem perform_memRead_mapped {addr : Addr} (s : State) (h : ¬ Unmapped addr) :
    ∃ t, perform (.memRead addr) s = .next t := by
  rw [← locationOf_eq_unmapped_iff, ← readLocation_eq_none_iff (s := s), ← ne_eq,
    Option.ne_none_iff_exists'] at h
  obtain ⟨v, hv⟩ := h
  exact ⟨_, perform_memRead_eq_next_iff.2 hv⟩

/-! #### Writes -/

theorem perform_memWrite_unmapped {addr : Addr} (v : Byte) (s : State) (h : Unmapped addr) :
    perform (.memWrite addr v) s = .refused (.unmappedWrite addr) := by
  simp only [perform, hostWrite, locationOf_unmapped h]

theorem perform_memWrite_readOnly {addr : Addr} (v : Byte) (s : State) (h : ReadOnly addr) :
    perform (.memWrite addr v) s = .refused (.readOnlyWrite addr) := by
  rcases h with h | h
  · simp only [perform, hostWrite, locationOf_fb h.1 h.2]
  · obtain rfl | rfl | rfl : addr = 0x1C04#16 ∨ addr = 0x1C05#16 ∨ addr = 0x1C06#16 := by bv_omega
    all_goals rfl

/-- `s` with the byte `v` stored at a location that holds a stored byte. -/
def storeAt (s : State) (v : Byte) : Location → State
  | .pix a => s.writePix a v
  | .imgW => { s with imgW := v }
  | .imgH => { s with imgH := v }
  | .opArg => { s with opArg := v }
  | _ => s

theorem perform_memWrite_stored {addr : Addr} (v : Byte) (s : State) (h : Stored addr) :
    perform (.memWrite addr v) s = .next (storeAt s v (locationOf addr)) := by
  rcases h.cases with hp | rfl | rfl | rfl
  · simp only [perform, hostWrite, locationOf_pix hp, storeAt]
  all_goals rfl

theorem readLocation_storeAt_same {addr : Addr} (s : State) (v : Byte) (h : Stored addr) :
    (storeAt s v (locationOf addr)).readLocation (locationOf addr) = some v := by
  rcases h.cases with hp | rfl | rfl | rfl
  · rw [locationOf_pix hp]
    exact congrArg some (State.pixByte_writePix_same s _ v)
  all_goals rfl

/-- A store disturbs no other location. -/
theorem readLocation_storeAt_other (s : State) (v : Byte) {l l' : Location} (h : l' ≠ l) :
    (storeAt s v l).readLocation l' = s.readLocation l' := by
  cases l with
  | pix a =>
    cases l' with
    | pix b => exact congrArg some (State.pixByte_writePix_other s v fun hb => h (congrArg _ hb))
    | _ => rfl
  | imgW | imgH | opArg =>
    cases l' <;> try rfl
    exact absurd rfl h
  | _ => rfl

theorem storeAt_storeAt_same {addr : Addr} {s : State} (v : Byte) (hs : Memory.wf 6144 s.pix)
    (h : Stored addr) :
    storeAt (storeAt s v (locationOf addr)) v (locationOf addr) = storeAt s v (locationOf addr) := by
  rcases h.cases with hp | rfl | rfl | rfl
  · rw [locationOf_pix hp]
    simp only [storeAt, State.writePix, Memory.write_write_same v v hs hp]
  all_goals rfl

/-- An issue of a reserved word records RESERVED_OP with ERR_INFO = OPC (R51, R98). -/
theorem issue_of_decode_error {opc : Byte} {s : State} {e : DecodeError}
    (h : decode (OpWord.ofBytes s.opArg opc) = .error e) :
    issue opc s = .next (failed s 0x11#8 opc 0x01#8) := by
  simp only [issue, h]
  rfl

/-! #### Refusals -/

/-- A host action answers a refusal where the map refuses it, and a next state elsewhere (R35). -/
theorem perform_answers (a : HostAction) (s : State) :
    (RefusedByMap a ∧ ∃ r, perform a s = .refused r) ∨
      (¬ RefusedByMap a ∧ ∃ t, perform a s = .next t) := by
  cases a with
  | reset => exact .inr ⟨id, _, rfl⟩
  | memRead addr =>
    by_cases h : Unmapped addr
    · exact .inl ⟨h, _, perform_memRead_unmapped s h⟩
    · exact .inr ⟨h, perform_memRead_mapped s h⟩
  | memWrite addr v =>
    rcases addr_write_classes addr with h | h | h | rfl
    · exact .inl ⟨.inl h, _, perform_memWrite_unmapped v s h⟩
    · exact .inl ⟨.inr h, _, perform_memWrite_readOnly v s h⟩
    · exact .inr ⟨not_or.2 ⟨h.not_unmapped, h.not_readOnly⟩, _, perform_memWrite_stored v s h⟩
    · obtain ⟨t, ht, -⟩ := issue_cases v s
      exact .inr ⟨by simp [RefusedByMap, Unmapped, ReadOnly], t, ht⟩

theorem runActions_refused_iff (actions : List HostAction) (s : State) :
    (runActions actions s).2 = true ↔ ∃ a ∈ actions, RefusedByMap a := by
  induction actions generalizing s with
  | nil => simp [runActions]
  | cons a rest ih =>
    rcases perform_answers a s with ⟨hr, r, hp⟩ | ⟨hn, t, hp⟩
    · simp [runActions, hp, hr]
    · simp [runActions, hp, hn, ih t]

/-! #### The statements -/

/-- Settles O37: a read returns what the location its address maps to holds. -/
theorem hostReadFollowsMap : Obligations.HostReadFollowsMap := by
  rintro s addr n rfl
  have hregister {n : Nat} {v : Byte} (h : addr.toNat = n)
      (hv : s.readLocation (locationOf (BitVec.ofNat 16 n)) = some v) :
      perform (.memRead addr) s = .next { s with readLog := s.readLog ++ [v] } :=
    perform_memRead_eq_next_iff.2 (addr_eq_ofNat h ▸ hv)
  exact ⟨fun h => perform_memRead_eq_next_iff.2 (by rw [locationOf_pix h]; rfl),
    fun h h' => perform_memRead_eq_next_iff.2 (by rw [locationOf_fb h h']; rfl),
    fun h => hregister h rfl, fun h => hregister h rfl, fun h => hregister h rfl,
    fun h => hregister h rfl, fun h => hregister h rfl, fun h => hregister h rfl,
    fun h => hregister h rfl⟩

/-- Settles O38: a write to PIX is a store, a write to OP_ISSUE an issue, a write to a read-only address
a refusal. -/
theorem hostWriteFollowsMap : Obligations.HostWriteFollowsMap := by
  rintro s addr v n rfl
  have hissue (h : addr.toNat = 0x1C03) : perform (.memWrite addr v) s = issue v s := by
    rw [addr_eq_ofNat h, perform_opIssue]
  refine ⟨fun h => ⟨s.writePix addr.toNat v, ?pix, rfl, State.pixByte_writePix_same s _ v,
      fun a ha => State.pixByte_writePix_other s v ha⟩, ?imgW, ?imgH, ?opArg,
    fun h i hd => (hissue h).trans (issue_of_decode hd),
    fun h e hd => (hissue h).trans (issue_of_decode_error hd),
    fun h h' => perform_memWrite_readOnly v s (.inl ⟨h, h'⟩),
    fun h => perform_memWrite_readOnly v s (.inr (by omega))⟩
  case pix => rw [perform_memWrite_stored v s (.inl h), locationOf_pix h]; rfl
  all_goals
    intro h
    rw [addr_eq_ofNat h]
    rfl

/-- Settles O39: a refusal and a next state exclude each other, and `perform_answers` says where each
is answered. -/
theorem refusedExactlyWhereTheMapSays : Obligations.RefusedExactlyWhereTheMapSays := by
  intro a s
  have hrun : RefusedByMap a → ∀ rest, (observe (a :: rest) s).refused = true := fun h rest =>
    (runActions_refused_iff (a :: rest) s).2 ⟨a, List.mem_cons_self, h⟩
  rcases perform_answers a s with ⟨hr, r, hp⟩ | ⟨hn, t, hp⟩
  · exact ⟨by simp [hr, hp], by simp [hr, hp], hrun⟩
  · exact ⟨by simp [hn, hp], by simp [hn, hp], hrun⟩

/-- Settles O40, by induction on the host's actions. -/
theorem runRefusedByItsActionsAlone : Obligations.RunRefusedByItsActionsAlone :=
  runActions_refused_iff

/-- Settles O41: the store is read back at its location, and another address has another location. -/
theorem readReturnsLastWrite : Obligations.ReadReturnsLastWrite := by
  intro s addr v h
  refine ⟨_, perform_memWrite_stored v s h,
    perform_memRead_eq_next_iff.2 (readLocation_storeAt_same s v h), fun other w hne hread => ?_⟩
  have hl : locationOf other ≠ locationOf addr := locationOf_ne hne (Stored.not_unmapped h)
  rw [perform_memRead_eq_next_iff] at hread ⊢
  rw [readLocation_storeAt_other s v hl, hread]

/-- Settles O42: a store is idempotent on a PIX in canonical form. -/
theorem hostWritesAreIdempotent : Obligations.HostWritesAreIdempotent := by
  intro s addr v hs h
  refine ⟨_, perform_memWrite_stored v s h, ?_⟩
  rw [perform_memWrite_stored v _ h, storeAt_storeAt_same v hs h]

end Sys2Proof.Proofs

/-! ### Family 30_encoding.md: operation words, ARG, command bytes and host programs -/

namespace Sys2Proof.Proofs

open Sys2Proof.Machine Sys2Proof.Safety

/-! #### The two bytes of an operation word -/

/-- A word is its two bytes: OPC below, ARG above (R46). -/
theorem ofBytes_arg_opc (w : OpWord) : OpWord.ofBytes w.arg w.opc = w := by
  apply BitVec.eq_of_getLsbD_eq
  intro j hj
  rw [OpWord.ofBytes, OpWord.arg, OpWord.opc, BitVec.getLsbD_append]
  split
  · next h => simp [h]
  · next h => simp [show j - 8 < 8 by omega, show 8 + (j - 8) = j by omega]

theorem ofNat_toNat_eq_opc (w : OpWord) : BitVec.ofNat 8 w.toNat = w.opc := by
  apply BitVec.eq_of_toNat_eq
  simp [OpWord.opc]

theorem ofNat_toNat_div_eq_arg (w : OpWord) : BitVec.ofNat 8 (w.toNat / 256) = w.arg := by
  apply BitVec.eq_of_toNat_eq
  simp [OpWord.arg, Nat.shiftRight_eq_div_pow]

theorem decodeBytes_opc_arg (w : OpWord) {i : Instr} (h : decode w = .ok i) (rest : List Byte) :
    decodeBytes (w.opc :: w.arg :: rest) = .ok (i, rest) := by
  simp only [decodeBytes, ofBytes_arg_opc, h]

theorem decodeTableWord_toNat (w : OpWord) {i : Instr} (h : decode w = .ok i) :
    decodeTableWord 16 w.toNat = some i := by
  have hw : w.toNat % 2 ^ 16 = w.toNat := Nat.mod_eq_of_lt w.isLt
  simp only [decodeTableWord, hw, if_pos (show w.toNat < 65536 from w.isLt), ofNat_toNat_eq_opc,
    ofNat_toNat_div_eq_arg, decodeBytes_opc_arg w h]

/-! #### Decoding what an operation is encoded as -/

/-- The operations with an operand decode with ARG as the operand, legal or not (R47). -/
theorem decode_ofBytes_operand {i : Instr} {arg : Byte}
    (h : i = .selectPage arg ∨ i = .selectColumn arg) :
    decode (OpWord.ofBytes arg i.opcode) = .ok i := by
  rcases h with rfl | rfl <;>
    simp [decode, Instr.opcode, Laws.OpWord.opc_ofBytes, Laws.OpWord.arg_ofBytes]

/-- The operations without an operand decode from their OPC with every ARG (R48, R49). -/
theorem decode_ofBytes_noOperand {i : Instr}
    (h : i = .encode ∨ i = .showImage ∨ i = .clear ∨ i = .fill) (arg : Byte) :
    decode (OpWord.ofBytes arg i.opcode) = .ok i := by
  rcases h with rfl | rfl | rfl | rfl <;> simp [decode, Instr.opcode, Laws.OpWord.opc_ofBytes]

theorem decode_encode (i : Instr) : decode (encode i) = .ok i := by
  cases i with
  | selectPage arg => exact decode_ofBytes_operand (.inl rfl)
  | selectColumn arg => exact decode_ofBytes_operand (.inr rfl)
  | encode | showImage | clear | fill => exact decode_ofBytes_noOperand (by simp) _

/-- Settles O6: the decoder inverts the encoder on words, and the two other decoders read a word's bytes
back. -/
theorem decodeInvertsEncode : Obligations.DecodeInvertsEncode := fun i rest =>
  ⟨decode_encode i, decodeBytes_opc_arg _ (decode_encode i) rest,
    decodeTableWord_toNat _ (decode_encode i)⟩

/-! #### The rows of the opcode map -/

theorem mask_of_mem_opcodeTable : ∀ r ∈ opcodeTable, r.mask = 0x00FF#16 := by decide

/-- A row's match value is an OPC with ARG 0, and the OPC is one of 1 to 6 (R49, R50). -/
theorem matched_of_mem_opcodeTable : ∀ r ∈ opcodeTable,
    r.matched = OpWord.ofBytes 0x00#8 r.matched.opc ∧
      1 ≤ r.matched.opc.toNat ∧ r.matched.opc.toNat ≤ 6 := by decide

/-- A row looks at OPC alone (R49). -/
theorem selects_iff_opc {r : OpcodeRow} (hr : r ∈ opcodeTable) (w : OpWord) :
    r.selects w = true ↔ w.opc = r.matched.opc := by
  have hm : w &&& r.mask = OpWord.ofBytes 0x00#8 w.opc := by
    rw [mask_of_mem_opcodeTable r hr]
    conv_lhs => rw [← ofBytes_arg_opc w]
    exact Laws.OpWord.mask_ofBytes _ _
  rw [OpcodeRow.selects, beq_iff_eq, hm]
  constructor
  · intro h
    rw [← h, Laws.OpWord.opc_ofBytes]
  · intro h
    rw [h, ← (matched_of_mem_opcodeTable r hr).1]

theorem tableRow (i : Instr) : Laws.TableRow.Statement i := by
  cases i with
  | selectPage arg => exact Laws.TableRow.selectPage arg
  | selectColumn arg => exact Laws.TableRow.selectColumn arg
  | encode => exact Laws.TableRow.encode
  | showImage => exact Laws.TableRow.showImage
  | clear => exact Laws.TableRow.clear
  | fill => exact Laws.TableRow.fill

theorem exists_row_of_mnemonic (i : Instr) : ∃ r ∈ opcodeTable, r.mnemonic = i.mnemonic := by
  cases i <;> simp [opcodeTable, Instr.mnemonic]

/-- A word that carries an operation's OPC selects that operation's row and no other (R49, R50). -/
theorem selects_iff_mnemonic {w : OpWord} {i : Instr} (h : w.opc = i.opcode) {r : OpcodeRow}
    (hr : r ∈ opcodeTable) : r.selects w = true ↔ r.mnemonic = i.mnemonic := by
  obtain ⟨hopc, -, hrow⟩ := tableRow i
  rw [← hrow r hr, selects_iff_opc hr, selects_iff_opc hr, h, hopc]

theorem opc_of_decode {w : OpWord} {i : Instr} (h : decode w = .ok i) : w.opc = i.opcode := by
  unfold decode at h
  split_ifs at h with h1 h2 h3 h4 h5 h6 <;> injection h with h <;> subst h <;> assumption

theorem map_mnemonic_decode_congr {w w' : OpWord} (h : w.opc = w'.opc) :
    (decode w).map Instr.mnemonic = (decode w').map Instr.mnemonic := by
  simp only [decode, h]
  split_ifs <;> rfl

/-- Settles O7: a row looks at OPC alone, as the decoder does; the rows' OPCs are 1 to 6, none of which
is reserved. -/
theorem decodingIsTotalAndUnambiguous : Obligations.DecodingIsTotalAndUnambiguous := by
  refine ⟨mask_of_mem_opcodeTable, fun w => ?_, fun w w' => map_mnemonic_decode_congr⟩
  cases hd : decode w with
  | ok i =>
    have hopc := opc_of_decode hd
    obtain ⟨r, hr, hi⟩ := exists_row_of_mnemonic i
    exact .inl ⟨i, rfl, hopc, fun r hr => selects_iff_mnemonic hopc hr,
      r, hr, (selects_iff_mnemonic hopc hr).2 hi⟩
  | error e =>
    obtain ⟨rfl, hres⟩ := decode_error hd
    refine .inr ⟨rfl, fun r hr => Bool.eq_false_iff.2 fun hsel => ?_⟩
    obtain ⟨-, hlo, hhi⟩ := matched_of_mem_opcodeTable r hr
    rw [(selects_iff_opc hr w).1 hsel] at hres
    omega

/-- Settles O5, by evaluating the decoder at each word. -/
theorem writtenOutWordsDecode : Obligations.WrittenOutWordsDecode :=
  ⟨rfl, rfl, rfl, rfl, rfl, rfl, rfl, rfl⟩

/-! #### Command bytes -/

/-- ORing a field below 16 into a byte whose low nibble is 0 adds it. -/
theorem or_nibble (hi : Nat) {lo : Nat} (h : lo < 16) : 16 * hi ||| lo = 16 * hi + lo :=
  (Nat.two_pow_add_eq_or_of_lt (i := 4) h hi).symm

theorem toNat_pageSelectByte {page : BitVec 16} (h : page.toNat ≤ 5) :
    (pageSelectByte page).toNat = 0xB0 + page.toNat := by
  have hor := or_nibble 11 (show page.toNat < 16 by omega)
  simpa [pageSelectByte, Nat.mod_eq_of_lt (show page.toNat < 256 by omega)] using hor

theorem toNat_columnLowByte (col : BitVec 16) : (columnLowByte col).toNat = col.toNat % 16 := by
  have hand : col.toNat &&& 15 = col.toNat % 16 := Nat.and_two_pow_sub_one_eq_mod _ 4
  simp only [columnLowByte, BitVec.zero_or, BitVec.toNat_setWidth, BitVec.toNat_and,
    BitVec.toNat_ofNat, Nat.reduceMod, Nat.reducePow, hand]
  omega

theorem toNat_columnHighByte {col : BitVec 16} (h : col.toNat ≤ 127) :
    (columnHighByte col).toNat = 0x10 + col.toNat / 16 := by
  have hand : col.toNat / 16 &&& 15 = col.toNat / 16 := by
    rw [show 15 = 2 ^ 4 - 1 from rfl, Nat.and_two_pow_sub_one_eq_mod]
    omega
  have hor := or_nibble 1 (show col.toNat / 16 < 16 by omega)
  simpa [columnHighByte, Nat.shiftRight_eq_div_pow, hand,
    Nat.mod_eq_of_lt (show col.toNat / 16 < 256 by omega)] using hor

theorem commandOfByte_columnLow {b : Byte} (h : b.toNat ≤ 0x0F) :
    commandOfByte b = some (.columnLow b.toNat) := by
  rw [commandOfByte, if_pos h]

theorem commandOfByte_columnHigh {b : Byte} {n : Nat} (hb : b.toNat = 0x10 + n) (hn : n ≤ 7) :
    commandOfByte b = some (.columnHigh n) := by
  rw [commandOfByte, if_neg (by omega), if_pos (by omega), hb, Nat.add_sub_cancel_left]

theorem commandOfByte_pageSelect {b : Byte} {n : Nat} (hb : b.toNat = 0xB0 + n) (hn : n ≤ 5) :
    commandOfByte b = some (.pageSelect n) := by
  have hoff : b ≠ displayOffByte := by rintro rfl; simp [displayOffByte] at hb; omega
  have hon : b ≠ displayOnByte := by rintro rfl; simp [displayOnByte] at hb; omega
  rw [commandOfByte, if_neg (by omega), if_neg (by omega), if_neg hoff, if_neg hon,
    if_pos (by omega), hb, Nat.add_sub_cancel_left]

/-- Settles O10: the number each command byte is, and the range of the reader it lies in. -/
theorem commandBytesNameOneCommand : Obligations.CommandBytesNameOneCommand := by
  refine ⟨fun page h => ?_, fun col h => ?_, rfl, rfl, rfl, rfl⟩
  · have hb := toNat_pageSelectByte h
    exact ⟨hb, commandOfByte_pageSelect hb h⟩
  · have hlow := toNat_columnLowByte col
    have hhigh := toNat_columnHighByte h
    refine ⟨hlow, ?_, hhigh, commandOfByte_columnHigh hhigh (by omega)⟩
    rw [← hlow]
    exact commandOfByte_columnLow (by omega)

/-! #### OP_ARG is read by the decoder alone -/

/-- `s` with the byte `a` in OP_ARG. -/
def withOpArg (a : Byte) (s : State) : State := { s with opArg := a }

/-- An operation on its way, with the byte `a` in OP_ARG. -/
def progressWithOpArg (a : Byte) : Progress → Progress
  | .running s k => .running (withOpArg a s) k
  | .ended s => .ended (withOpArg a s)

section OpArg

variable (a : Byte) (g : Progress)

theorem complete_withOpArg : (progressWithOpArg a g).complete = withOpArg a g.complete := by
  cases g <;> rfl

/-- A stage that runs alike whatever OP_ARG holds still does so after another. -/
theorem andThen_withOpArg {stage : State → Byte → Progress}
    (h : ∀ s k, stage (withOpArg a s) k = progressWithOpArg a (stage s k)) :
    (progressWithOpArg a g).andThen stage = progressWithOpArg a (g.andThen stage) := by
  cases g with
  | running s k => exact h s k
  | ended s => rfl

theorem emitFrom_withOpArg {tx : State → Transaction} (h : ∀ s, tx (withOpArg a s) = tx s) :
    (progressWithOpArg a g).emitFrom tx = progressWithOpArg a (g.emitFrom tx) := by
  refine andThen_withOpArg a g fun s k => ?_
  have ha : (withOpArg a s).answerAt 0 (tx s) = s.answerAt 0 (tx s) := rfl
  rw [h, ha]
  cases s.answerAt 0 (tx s) <;> rfl

@[simp] theorem emitCmd_withOpArg (b : Byte) :
    (progressWithOpArg a g).emitCmd b = progressWithOpArg a (g.emitCmd b) :=
  emitFrom_withOpArg a g fun _ => rfl

@[simp] theorem streamPage_withOpArg (p : Nat) :
    (progressWithOpArg a g).streamPage p = progressWithOpArg a (g.streamPage p) := by
  simp only [Progress.streamPage, emitCmd_withOpArg]
  exact emitFrom_withOpArg a _ fun _ => rfl

@[simp] theorem pageStream_withOpArg :
    (progressWithOpArg a g).pageStream = progressWithOpArg a g.pageStream :=
  List.foldl_hom (progressWithOpArg a) (streamPage_withOpArg a)

@[simp] theorem encodeCheck_withOpArg :
    (progressWithOpArg a g).encodeCheck = progressWithOpArg a g.encodeCheck := by
  refine andThen_withOpArg a g fun s k => ?_
  have hd : (withOpArg a s).dimMismatch = s.dimMismatch := rfl
  rw [hd]
  cases s.dimMismatch <;> rfl

@[simp] theorem write_encodeFB_withOpArg :
    (progressWithOpArg a g).write State.encodeFB =
      progressWithOpArg a (g.write State.encodeFB) :=
  andThen_withOpArg a g fun _ _ => rfl

@[simp] theorem write_paintFB_withOpArg (v : Byte) :
    (progressWithOpArg a g).write (State.paintFB v) =
      progressWithOpArg a (g.write (State.paintFB v)) :=
  andThen_withOpArg a g fun _ _ => rfl

@[simp] theorem emitBracket_withOpArg (b : Byte) :
    (progressWithOpArg a g).emitBracket b = progressWithOpArg a (g.emitBracket b) := by
  refine andThen_withOpArg a g fun s k => ?_
  have hb : (withOpArg a s).bracketClearFill = s.bracketClearFill := rfl
  rw [hb]
  cases s.bracketClearFill with
  | true => exact emitCmd_withOpArg a (.running s k) b
  | false => rfl

end OpArg

/-- An operation whose pseudocode runs alike whatever OP_ARG holds leaves states alike but for it. -/
theorem runOperation_withOpArg {body : Progress → Progress}
    (h : ∀ a g, body (progressWithOpArg a g) = progressWithOpArg a (body g)) (s : State) :
    ∃ t, ∀ a, runOperation body (withOpArg a s) = .next (withOpArg a t) := by
  refine ⟨(body (.running s 0#8)).complete, fun a => ?_⟩
  rw [runOperation, ← complete_withOpArg, ← h]
  rfl

theorem exec_withOpArg {i : Instr} (h : i = .encode ∨ i = .showImage ∨ i = .clear ∨ i = .fill)
    (s : State) : ∃ t, ∀ a, exec i (withOpArg a s) = .next (withOpArg a t) := by
  rcases h with rfl | rfl | rfl | rfl <;>
    simp only [exec, execEncode, execShowImage, execClear, execFill] <;>
    exact runOperation_withOpArg (fun a g => by simp [Progress.surfaceUpdate]) s

theorem exists_noOperand_of_opc {opc : Byte} (h : 3 ≤ opc.toNat) (h' : opc.toNat ≤ 6) :
    ∃ i : Instr, (i = .encode ∨ i = .showImage ∨ i = .clear ∨ i = .fill) ∧ i.opcode = opc := by
  obtain rfl | rfl | rfl | rfl : opc = 0x03#8 ∨ opc = 0x04#8 ∨ opc = 0x05#8 ∨ opc = 0x06#8 := by
    bv_omega
  · exact ⟨.encode, by simp, rfl⟩
  · exact ⟨.showImage, by simp, rfl⟩
  · exact ⟨.clear, by simp, rfl⟩
  · exact ⟨.fill, by simp, rfl⟩

/-! #### The column commands of SHOW_IMAGE -/

/-- The transaction, if it is a column command, selects nibble 0. -/
def ColumnZero (tx : Transaction) : Prop :=
  ∀ b n, tx = .cmd b →
    (commandOfByte b = some (.columnLow n) ∨ commandOfByte b = some (.columnHigh n)) → n = 0

theorem columnZero_data (bs : List Byte) : ColumnZero (.data bs) := nofun

theorem columnZero_cmd {b : Byte} {c : Command} (hc : commandOfByte b = some c)
    (h : ∀ n, c = .columnLow n ∨ c = .columnHigh n → n = 0) : ColumnZero (.cmd b) := by
  rintro _ n ⟨⟩ hn
  rw [hc, Option.some.injEq, Option.some.injEq] at hn
  exact h n hn

theorem columnZero_streamTx (fb : Nat → Byte) {k : Nat} (hk : k < 24) :
    ColumnZero (streamTx fb k) := by
  unfold streamTx
  split_ifs
  · have hb : (BitVec.ofNat 8 (0xB0 + k / 4)).toNat = 0xB0 + k / 4 :=
      Nat.mod_eq_of_lt (by omega)
    exact columnZero_cmd (commandOfByte_pageSelect hb (by omega)) (by simp)
  · exact columnZero_cmd (c := .columnLow 0) rfl (by simp)
  · exact columnZero_cmd (c := .columnHigh 0) rfl (by simp)
  · exact columnZero_data _

theorem columnZero_bracketedPlan (fb : Nat → Byte) : ∀ tx ∈ bracketedPlan fb, ColumnZero tx := by
  intro tx htx
  simp only [bracketedPlan, List.mem_append, List.mem_singleton] at htx
  rcases htx with (rfl | htx) | rfl
  · exact columnZero_cmd (c := .displayOff) rfl (by simp)
  · obtain ⟨k, hk, rfl⟩ := List.mem_map.1 htx
    exact columnZero_streamTx fb (List.mem_range.1 hk)
  · exact columnZero_cmd (c := .displayOn) rfl (by simp)

/-- What SHOW_IMAGE adds to OUT is from one bracketed page stream, whether it is turned away, runs to
its end or stops at a fault (R86, R102). -/
theorem execShowImage_out {s t : State} (h : execShowImage s = .next t) :
    ∃ fb new, t.out = s.out ++ new ∧ ∀ e ∈ new, e.1 ∈ bracketedPlan fb := by
  obtain ⟨fb, hf⟩ : ∃ fb, IsImageOf s fb := ⟨_, isImageOf_pack s⟩
  refine ⟨fb, ?_⟩
  by_cases hd : DimsOk s
  · rcases allOk_or_firstFault s (bracketedPlan fb) with hok | ⟨k, tx, hfault⟩
    · rw [execShowImage_allOk hd hf hok] at h
      obtain rfl := Host.Outcome.next.inj h
      exact ⟨_, rfl, by simp⟩
    · rw [execShowImage_match hd hf, complete_bracketed_fault hfault] at h
      obtain rfl := Host.Outcome.next.inj h
      refine ⟨((bracketedPlan fb).take k).map (fun tx => (tx, .ok)) ++ [(tx, .fault)], ?_, ?_⟩
      · rw [← List.append_assoc]
        split_ifs <;> rfl
      · intro e he
        rcases List.mem_append.1 he with he | he
        · obtain ⟨tx', htx', rfl⟩ := List.mem_map.1 he
          exact List.mem_of_mem_take htx'
        · obtain rfl := List.mem_singleton.1 he
          exact List.mem_of_getElem? hfault.1
  · rw [execShowImage_mismatch hd] at h
    obtain rfl := Host.Outcome.next.inj h
    exact ⟨[], (List.append_nil _).symm, by simp⟩

/-- Settles O8: an OPC of 3 to 6 decodes to an operation without an operand, whose pseudocode does not
read OP_ARG; and SHOW_IMAGE sends a part of a bracketed page stream. -/
theorem argIgnoredWithoutOperand : Obligations.ArgIgnoredWithoutOperand := by
  refine ⟨fun s opc a b h h' => ?_, fun s t h e he b n hb hn => ?_⟩
  · obtain ⟨i, hi, rfl⟩ := exists_noOperand_of_opc h h'
    obtain ⟨t, ht⟩ := exec_withOpArg hi s
    have hissue (c : Byte) : issue i.opcode (withOpArg c s) = .next (withOpArg c t) := by
      rw [issue_of_decode (decode_ofBytes_noOperand hi (withOpArg c s).opArg), ht c]
    exact ⟨t, hissue a, hissue b⟩
  · rw [issue_showImage] at h
    obtain ⟨fb, new, hout, hnew⟩ := execShowImage_out h
    rw [hout, List.drop_left] at he
    exact columnZero_bracketedPlan fb e.1 (hnew e he) b n hb hn

/-! #### Host programs -/

/-- Settles O46: a mnemonic's last action writes the operation's OPC to OP_ISSUE, after the operand, if
there is one, was written to OP_ARG. -/
theorem mnemonicExpansionRunsOperation : Obligations.MnemonicExpansionRunsOperation := by
  intro s i rest hacts
  refine ⟨fun arg hi => ?_, fun hi => ?_⟩
  · have hexp : mnemonicActions i = opActions i.opcode arg := by rcases hi with rfl | rfl <;> rfl
    rw [hexp] at hacts
    refine ⟨{ s with opArg := arg, hostActions := .memWrite opIssueAddr i.opcode :: rest },
      step_of_hostActions_cons hacts, ?_⟩
    rw [step_of_hostActions_cons rfl]
    exact (perform_opIssue _ _).trans (issue_of_decode (decode_ofBytes_operand hi))
  · have hexp : mnemonicActions i = [.memWrite opIssueAddr i.opcode] := by
      rcases hi with rfl | rfl | rfl | rfl <;> rfl
    rw [hexp] at hacts
    rw [step_of_hostActions_cons hacts]
    exact (perform_opIssue _ _).trans (issue_of_decode (decode_ofBytes_noOperand hi _))

theorem runActions_cons {a : HostAction} {s t : State} (h : perform a s = .next t)
    (rest : List HostAction) : runActions (a :: rest) s = runActions rest t := by
  simp only [runActions, h]

/-- A write at a pixel's address writes that pixel (R32, R34). -/
theorem perform_memWrite_pix {a : Nat} (ha : a < 6144) (v : Byte) (s : State) :
    perform (.memWrite (BitVec.ofNat 16 a) v) s = .next (s.writePix a v) := by
  have hn : (BitVec.ofNat 16 a).toNat = a := Nat.mod_eq_of_lt (by omega)
  have hlt : (BitVec.ofNat 16 a).toNat < 0x1800 := by omega
  rw [perform_memWrite_stored v s (.inl hlt), locationOf_pix hlt, hn]
  rfl

/-- Writes of one byte at pixel addresses: PIX alone changes, at those addresses alone. -/
theorem runActions_pixWrites (v : Byte) (addrs : List Nat) (h : ∀ a ∈ addrs, a < 6144) (s : State) :
    ∃ m, runActions (addrs.map fun a => .memWrite (BitVec.ofNat 16 a) v) s =
        ({ s with pix := m }, false) ∧
      ∀ b, Memory.lookup m b = if b ∈ addrs then some v else Memory.lookup s.pix b := by
  induction addrs generalizing s with
  | nil => exact ⟨s.pix, rfl, by simp⟩
  | cons a rest ih =>
    obtain ⟨ha, hrest⟩ := List.forall_mem_cons.1 h
    obtain ⟨m, hrun, hm⟩ := ih hrest (s.writePix a v)
    refine ⟨m, ?_, fun b => ?_⟩
    · rw [List.map_cons, runActions_cons (perform_memWrite_pix ha v s), hrun]
      rfl
    · rw [hm, State.writePix_pix, Memory.lookup_write]
      by_cases hb : b ∈ rest <;> simp [hb]

/-- Settles O47: each expansion is a list of stores, of registers or of pixels. -/
theorem pseudoOperationsWriteWhatTheySay : Obligations.PseudoOperationsWriteWhatTheySay := by
  refine ⟨fun s w h => ?_, fun s r c v hr hc => ?_, fun s v => ?_⟩
  · have hw : perform (.memWrite 0x1C00#16 w) s = .next { s with imgW := w } := rfl
    rw [setDimsActions, runActions_cons hw]
    exact runActions_cons rfl []
  · have ha : r * 128 + c < 6144 := by omega
    exact ⟨s.writePix (r * 128 + c) v, runActions_cons (perform_memWrite_pix ha v s) [], rfl,
      State.pixByte_writePix_same s _ v, fun a hne => State.pixByte_writePix_other s v hne⟩
  · obtain ⟨m, hrun, hm⟩ := runActions_pixWrites v (List.range 6144) (by simp) s
    exact ⟨{ s with pix := m }, hrun, rfl, fun a ha => by simp [hm, ha]⟩

end Sys2Proof.Proofs

/-! ### Family 40_addressing.md: SELECT_PAGE, SELECT_COLUMN and the column commands -/

namespace Sys2Proof.Proofs

open Sys2Proof.Machine Sys2Proof.Safety

/-- Settles O11: the formula is the definition of the two command bytes, evaluated at the four
columns. -/
theorem columnCmdsFormulaAndValues : Obligations.ColumnCmdsFormulaAndValues :=
  ⟨fun _ => rfl, rfl, rfl, rfl, rfl⟩

/-! #### The whole next state -/

/-- A one-transaction plan is all answered ok when its transaction is. -/
theorem allOk_singleton {s : State} {tx : Transaction} (h : s.answerAt 0 tx = .ok) :
    AllOk s [tx] := by
  intro j tx' hj
  obtain ⟨rfl, rfl⟩ : j = 0 ∧ tx = tx' := by simpa [List.getElem?_singleton] using hj
  exact h

/-- A one-transaction plan faults first at position 0. -/
theorem firstFault_singleton {s : State} {tx : Transaction} (h : s.answerAt 0 tx = .fault) :
    FirstFault s [tx] 0 tx :=
  ⟨rfl, h, fun _ _ hj => absurd hj (Nat.not_lt_zero _)⟩

/-- Settles O12: an illegal page is turned away, a legal one sends a plan of one transaction. -/
theorem selectPageResult : Obligations.SelectPageResult := by
  intro arg s
  refine ⟨decode_ofBytes_operand (i := .selectPage arg) (.inl rfl), execSelectPage_outOfRange s,
    fun h hok => ?_, fun h hfault => ?_⟩
  · rw [exec, execSelectPage_legal s h, complete_emitAll_ok (allOk_singleton hok)]
  · rw [exec, execSelectPage_legal s h, complete_emitAll_fault (firstFault_singleton hfault)]
    rfl

/-- Settles O13: an illegal column is turned away, a legal one sends a plan of two transactions. -/
theorem selectColumnResult : Obligations.SelectColumnResult := by
  intro arg s plan
  refine ⟨decode_ofBytes_operand (i := .selectColumn arg) (.inr rfl), execSelectColumn_outOfRange s,
    fun h hok => ?_, fun k tx h hfault => ?_⟩
  · rw [exec, execSelectColumn_legal s h, complete_emitAll_ok hok]
  · rw [exec, execSelectColumn_legal s h, complete_emitAll_fault hfault]

/-! #### What the addressing operations touch and read -/

/-- Which of the two an addressing operation does, and with which plan, depends on its operand alone:
it is turned away or it sends a plan (R66, R68). -/
theorem exec_addressing {i : Instr} {arg : Byte}
    (h : i = .selectPage arg ∨ i = .selectColumn arg) :
    (∃ status info flag, ∀ s, exec i s = .next (failed s status info flag)) ∨
      ∃ plan, ∀ s, exec i s = .next ((Progress.running s 0#8).emitAll plan).complete := by
  rcases h with rfl | rfl
  · rcases Nat.lt_or_ge 5 arg.toNat with hr | hr
    · exact .inl ⟨_, _, _, fun s => execSelectPage_outOfRange s hr⟩
    · exact .inr ⟨_, fun s => execSelectPage_legal s hr⟩
  · rcases Nat.lt_or_ge 127 arg.toNat with hr | hr
    · exact .inl ⟨_, _, _, fun s => execSelectColumn_outOfRange s hr⟩
    · exact .inr ⟨_, fun s => execSelectColumn_legal s hr⟩

/-- The two states differ in OUT, the error registers and the sink's progress at most. -/
def SameButOutAndErrors (s t : State) : Prop :=
  t = { s with out := t.out, errStatus := t.errStatus, errInfo := t.errInfo,
               sticky := t.sticky, sinkAnswers := t.sinkAnswers, sinkDraws := t.sinkDraws }

/-- Sending a plan touches OUT, the error registers and the sink alone (R64, R96, R97). -/
theorem complete_emitAll_frame (s : State) (plan : List Transaction) :
    SameButOutAndErrors s ((Progress.running s 0#8).emitAll plan).complete := by
  rcases allOk_or_firstFault s plan with hok | ⟨k, tx, hfault⟩
  · rw [complete_emitAll_ok hok]; rfl
  · rw [complete_emitAll_fault hfault]; rfl

/-- Sending a plan does not read the framebuffer: the sink answers alike whatever it holds. -/
theorem complete_emitAll_withFb (s : State) (plan : List Transaction) (m : Memory) :
    ((Progress.running (withFb s m) 0#8).emitAll plan).complete =
      withFb ((Progress.running s 0#8).emitAll plan).complete m := by
  rcases allOk_or_firstFault s plan with hok | ⟨k, tx, hfault⟩
  · have hok' : AllOk (withFb s m) plan := hok
    rw [complete_emitAll_ok hok, complete_emitAll_ok hok']; rfl
  · have hfault' : FirstFault (withFb s m) plan k tx := hfault
    rw [complete_emitAll_fault hfault, complete_emitAll_fault hfault']; rfl

/-- Settles O14: being turned away and sending a plan both touch OUT and the error registers alone, and
neither reads FB. -/
theorem addressingTouchesOnlyOutAndErrors : Obligations.AddressingTouchesOnlyOutAndErrors := by
  intro i arg s h
  rcases exec_addressing h with ⟨status, info, flag, hexec⟩ | ⟨plan, hexec⟩
  · exact ⟨_, hexec s, rfl, fun m => hexec (withFb s m)⟩
  · refine ⟨_, hexec s, complete_emitAll_frame s plan, fun m => ?_⟩
    exact (hexec (withFb s m)).trans (by rw [complete_emitAll_withFb]; rfl)

end Sys2Proof.Proofs

/-! ### Family 41_codec.md: the threshold, the packed framebuffer and ENCODE -/

namespace Sys2Proof.Proofs

open Sys2Proof.Machine Sys2Proof.Safety

/-! #### The threshold -/

/-- Dark is the complement of the intensity's top bit (R72). -/
theorem dark_eq_not_topBit (v : Byte) : dark v = !v.getLsbD 7 := by
  have hmsb : v.getLsbD 7 = decide (128 ≤ v.toNat) :=
    v.msb_eq_getLsbD_last.symm.trans v.msb_eq_decide
  rw [hmsb, dark, ← decide_not]
  exact decide_eq_decide.2 Nat.not_le.symm

/-- Settles O15: `thr` is the comparison by definition, and is `dark` as one bit. -/
theorem thresholdIsInvertedTopBit : Obligations.ThresholdIsInvertedTopBit := by
  refine fun v => ⟨rfl, ?_⟩
  rw [thr_eq_dark, dark_eq_not_topBit]
  apply BitVec.eq_of_getLsbD_eq
  intro j hj
  obtain rfl : j = 0 := by omega
  simp

theorem dark_eq_true {v : Byte} (h : v.toNat < 128) : dark v = true := decide_eq_true h

theorem dark_eq_false {v : Byte} (h : 128 ≤ v.toNat) : dark v = false :=
  decide_eq_false (Nat.not_lt.2 h)

/-! #### ENCODE, for any function that is the image in PIX -/

/-- ENCODE with the right dimensions: the whole next state (R75). -/
theorem exec_encode_of_isImageOf {s : State} {fb : Nat → Byte} (hd : DimsOk s)
    (hf : IsImageOf s fb) :
    exec .encode s = .next (succeeded (s.setFb (fullFramebuffer fb))) :=
  (execEncode_match hd).trans (by rw [encodeFB_eq_of_isImageOf hf])

/-- The bytes of the framebuffer ENCODE leaves. -/
theorem exec_encode_fbByte {s : State} {fb : Nat → Byte} (hd : DimsOk s) (hf : IsImageOf s fb) :
    ∃ t : State, exec .encode s = .next t ∧ ∀ i, i < 768 → t.fbByte i = fb i :=
  ⟨_, exec_encode_of_isImageOf hd hf, fun _ hi => State.fbByte_of_full rfl hi⟩

/-- Being the image in PIX depends on which pixels are dark alone (R80). -/
theorem isImageOf_congr {s s' : State} {fb : Nat → Byte} (hf : IsImageOf s fb)
    (h : ∀ a, a < 6144 → dark (s.pixByte a) = dark (s'.pixByte a)) : IsImageOf s' fb := by
  intro p c j hp hc hj
  rw [hf p c j hp hc hj, h _ (by omega)]

/-- One framebuffer is the image of two states alike in which pixels are dark. -/
theorem exec_encode_congr {s s' : State} {fb : Nat → Byte} (hd : DimsOk s') (hf : IsImageOf s fb)
    (h : ∀ a, a < 6144 → dark (s.pixByte a) = dark (s'.pixByte a)) :
    ∃ t : State, exec .encode s' = .next t ∧ t.fb = fullFramebuffer fb :=
  ⟨_, exec_encode_of_isImageOf hd (isImageOf_congr hf h), rfl⟩

/-! #### The whole next state and the closed form -/

/-- ERR_INFO of a mismatch is the sum of its two flags (R75, R94). -/
theorem dimInfo_eq_flags (w h : Byte) :
    dimInfo w h =
      BitVec.ofNat 8 ((if w ≠ 128#8 then 1 else 0) + (if h ≠ 48#8 then 2 else 0)) := by
  have key : ∀ a b : Bool, (flagBit b ++ flagBit a).setWidth 8 =
      BitVec.ofNat 8 ((if a = true then 1 else 0) + (if b = true then 2 else 0)) := by decide
  simpa only [dimInfo, bne_iff_ne] using key (w != 128#8) (h != 48#8)

/-- Settles O16: matching dimensions write the packed bytes, others are turned away. -/
theorem encodeResult : Obligations.EncodeResult := by
  refine ⟨decode_ofBytes_noOperand (i := .encode) (.inl rfl), fun s hd => ?_, fun s hd => ?_⟩
  · have hf := isImageOf_pack s
    refine ⟨_, exec_encode_of_isImageOf hd hf, fullFramebuffer_wf _, fun p c hp hc => ?_⟩
    have hi : p * 128 + c < 768 := by omega
    exact ⟨_, (fullFramebuffer_lookup _ _).trans (if_pos hi), fun j hj => hf p c j hp hc hj⟩
  · rw [← dimInfo_eq_flags]
    exact execEncode_mismatch hd

/-- A framebuffer bit comes from one pixel: row and column are read off its position (R76). -/
theorem pixel_of_bit {i j r c : Nat} (hc : c < 128) (hi : r / 8 * 128 + c = i) (hj : r % 8 = j) :
    r = i / 128 * 8 + j ∧ c = i % 128 := by
  omega

/-- Settles O17: the framebuffer ENCODE leaves is the image in PIX, and a bit's position names the
pixel it comes from. -/
theorem encodeClosedForm : Obligations.EncodeClosedForm := by
  refine ⟨fun s hd => ?_, fun i j hi hj => ?_⟩
  · have hf := isImageOf_encodeFB s
    refine ⟨_, execEncode_match hd, fun p c j hp hc hj => ?_, fun r c => isImageOf_pixel hf⟩
    exact ⟨hf p c j hp hc hj, (hf p c j hp hc hj).trans (dark_eq_not_topBit _)⟩
  · refine ⟨i / 128 * 8 + j, i % 128, by omega, by omega, by omega, by omega, ?_⟩
    exact fun r c _ hc hi hj => pixel_of_bit hc hi hj

/-! #### The order of the byte writes -/

theorem mem_of_lookup {m : Memory} {a : Nat} {v : Byte} (h : Memory.lookup m a = some v) :
    (a, v) ∈ m := by
  induction m with
  | nil => cases h
  | cons x rest ih =>
    rw [Memory.lookup] at h
    split at h
    · next hk => cases h; cases hk; exact List.mem_cons_self
    · exact List.mem_cons_of_mem _ (ih h)

/-- A canonical store lists nothing beyond its size. -/
theorem lookup_eq_none_of_size_le {size : Nat} {m : Memory} (hm : Memory.wf size m) {a : Nat}
    (ha : size ≤ a) : Memory.lookup m a = none := by
  refine Option.eq_none_iff_forall_ne_some.2 fun v hv => ?_
  exact absurd (hm.2 _ (mem_of_lookup hv)) (Nat.not_lt.2 ha)

/-- Write byte `g i` at every index `i` of `order`, one by one. -/
def writeInOrder (g : Nat → Byte) (order : List Nat) (m : Memory) : Memory :=
  order.foldl (fun m i => Memory.write m i (g i)) m

theorem lookup_writeInOrder (g : Nat → Byte) (order : List Nat) (m : Memory) (a : Nat) :
    Memory.lookup (writeInOrder g order m) a =
      if a ∈ order then some (g a) else Memory.lookup m a := by
  induction order generalizing m with
  | nil => simp [writeInOrder]
  | cons i rest ih =>
    have h := ih (Memory.write m i (g i))
    rw [Memory.lookup_write] at h
    by_cases hrest : a ∈ rest
    · simpa [writeInOrder, hrest] using h
    · by_cases hi : a = i
      · simpa [writeInOrder, hi] using h
      · simpa [writeInOrder, hrest, hi] using h

theorem writeInOrder_wf {size : Nat} {g : Nat → Byte} {order : List Nat} {m : Memory}
    (hm : Memory.wf size m) (horder : ∀ i ∈ order, i < size) :
    Memory.wf size (writeInOrder g order m) := by
  induction order generalizing m with
  | nil => exact hm
  | cons i rest ih =>
    exact ih (Memory.write_wf _ hm (horder i List.mem_cons_self)) fun k hk =>
      horder k (List.mem_cons_of_mem _ hk)

/-- An order that meets every index below 768 and no other writes the whole framebuffer, whatever it
held before (R77). -/
theorem writeInOrder_eq_full {g : Nat → Byte} {order : List Nat} {m : Memory}
    (hm : Memory.wf 768 m) (horder : ∀ i, i ∈ order ↔ i < 768) :
    writeInOrder g order m = fullFramebuffer g := by
  refine Memory.ext_of_wf (writeInOrder_wf hm fun i => (horder i).1) (fullFramebuffer_wf g) ?_
  intro a
  rw [lookup_writeInOrder, fullFramebuffer_lookup]
  by_cases ha : a < 768
  · rw [if_pos ((horder a).2 ha), if_pos ha]
  · rw [if_neg (mt (horder a).1 ha), if_neg ha, lookup_eq_none_of_size_le hm (by omega)]

/-- The order in which the loops of R75 write: pages 0 to 5, and in a page columns 0 to 127. -/
def loopOrder : List Nat := (List.range 6).flatMap fun p => (List.range 128).map (p * 128 + ·)

theorem mem_loopOrder (i : Nat) : i ∈ loopOrder ↔ i < 768 := by
  simp only [loopOrder, List.mem_flatMap, List.mem_map, List.mem_range]
  constructor
  · rintro ⟨p, hp, c, hc, rfl⟩
    omega
  · exact fun hi => ⟨i / 128, by omega, i % 128, by omega, by omega⟩

/-- The two nested loops of R75 are one pass over `loopOrder`. -/
theorem loops_eq_writeInOrder (pack : Nat → Nat → Byte) (m : Memory) :
    (List.range 6).foldl (fun m p => (List.range 128).foldl
      (fun m c => Memory.write m (p * 128 + c) (pack p c)) m) m =
      writeInOrder (fun i => pack (i / 128) (i % 128)) loopOrder m := by
  rw [writeInOrder, loopOrder, List.foldl_flatMap]
  simp only [List.foldl_map]
  refine List.foldl_ext _ _ _ fun m p _ => List.foldl_ext _ _ _ fun m c hc => ?_
  have hc := List.mem_range.1 hc
  rw [show (p * 128 + c) / 128 = p by omega, show (p * 128 + c) % 128 = c by omega]

/-- Settles O18: the loops and every other order are passes over all indexes, and both the images of
equal PIX and the image after ENCODE are the packed bytes of `s`. -/
theorem encodeIndependentOfWriteOrder : Obligations.EncodeIndependentOfWriteOrder := by
  intro s hd
  have hf := isImageOf_pack s
  refine ⟨_, exec_encode_of_isImageOf hd hf, fun m hm => ?_, fun order m horder hm => ?_,
    fun s' hd' hpix => ?_, ?_⟩
  · exact (loops_eq_writeInOrder s.pack m).trans (writeInOrder_eq_full hm mem_loopOrder)
  · exact writeInOrder_eq_full hm fun i => horder.mem_iff.trans List.mem_range
  · exact exec_encode_congr hd' hf fun a ha => congrArg dark (hpix a ha).symm
  · exact exec_encode_of_isImageOf hd hf

/-! #### Particular images -/

/-- The framebuffer with bit r mod 8 of byte (r/8)*128 + c set and no other (R78). -/
def oneBitFb (r c : Nat) (i : Nat) : Byte :=
  if i = r / 8 * 128 + c then 1#8 <<< (r % 8) else 0x00#8

theorem oneBitFb_getLsbD {r c c' p j : Nat} (hc : c < 128) (hc' : c' < 128) (hj : j < 8) :
    (oneBitFb r c (p * 128 + c')).getLsbD j =
      decide ((p * 8 + j) * 128 + c' = r * 128 + c) := by
  by_cases hi : p * 128 + c' = r / 8 * 128 + c
  · have hp : p = r / 8 := by omega
    have hpixel : (p * 8 + j) * 128 + c' = r * 128 + c ↔ ¬ j < r % 8 ∧ j - r % 8 = 0 := by
      omega
    simp only [oneBitFb, if_pos hi, hpixel, BitVec.getLsbD_shiftLeft, BitVec.getLsbD_one, hj,
      Bool.decide_and, decide_not, decide_true, Bool.true_and,
      Nat.zero_lt_succ]
  · rw [oneBitFb, if_neg hi, BitVec.getLsbD_zero]
    exact (decide_eq_false (by omega)).symm

/-- Settles O19: the framebuffer with one bit is the image with one dark pixel. -/
theorem singlePixelEncodesToOneBit : Obligations.SinglePixelEncodesToOneBit := by
  intro s r c hd hr hc hdark hlight
  have hf : IsImageOf s (oneBitFb r c) := by
    intro p c' j hp hc' hj
    rw [oneBitFb_getLsbD hc hc' hj]
    by_cases ha : (p * 8 + j) * 128 + c' = r * 128 + c
    · rw [ha, dark_eq_true hdark, decide_eq_true rfl]
    · rw [dark_eq_false (hlight _ (by omega) ha), decide_eq_false ha]
  exact exec_encode_fbByte hd hf

/-- A framebuffer of 0x00 bytes is the image of a PIX with every pixel light (R79). -/
theorem isImageOf_allLight {s : State} (h : ∀ a, a < 6144 → 128 ≤ (s.pixByte a).toNat) :
    IsImageOf s fun _ => 0x00#8 := by
  intro p c j hp hc hj
  rw [dark_eq_false (h _ (by omega)), BitVec.getLsbD_zero]

/-- A framebuffer of 0xFF bytes is the image of a PIX with every pixel dark (R79). -/
theorem isImageOf_allDark {s : State} (h : ∀ a, a < 6144 → (s.pixByte a).toNat < 128) :
    IsImageOf s fun _ => 0xFF#8 := by
  intro p c j hp hc hj
  have hbits : (0xFF#8).getLsbD j = true := by interval_cases j <;> rfl
  rw [dark_eq_true (h _ (by omega)), hbits]

/-- Settles O20: the two uniform framebuffers are the images of the two uniform pictures. -/
theorem encodePolarity : Obligations.EncodePolarity := fun _ hd =>
  ⟨fun h => exec_encode_fbByte hd (isImageOf_allLight h),
    fun h => exec_encode_fbByte hd (isImageOf_allDark h)⟩

/-- The intensity a framebuffer's bit asks of the pixel at address `a`: 0 where the bit is set,
255 elsewhere (R80). -/
def imageByte (f : Nat → Byte) (a : Nat) : Byte :=
  if (f (a / 128 / 8 * 128 + a % 128)).getLsbD (a / 128 % 8) then 0x00#8 else 0xFF#8

theorem dark_imageByte (f : Nat → Byte) {p c j : Nat} (hc : c < 128) (hj : j < 8) :
    dark (imageByte f ((p * 8 + j) * 128 + c)) = (f (p * 128 + c)).getLsbD j := by
  have hrow : ((p * 8 + j) * 128 + c) / 128 = p * 8 + j := by omega
  have hcol : ((p * 8 + j) * 128 + c) % 128 = c := by omega
  have hpage : (p * 8 + j) / 8 = p := by omega
  have hbit : (p * 8 + j) % 8 = j := by omega
  rw [imageByte, hrow, hcol, hpage, hbit]
  cases (f (p * 128 + c)).getLsbD j <;> rfl

/-- Every image can be written whole into a canonical PIX. -/
theorem exists_pix_of_image (img : Nat → Byte) :
    ∃ pix : Memory, Memory.wf 6144 pix ∧ ∀ a, a < 6144 → Memory.lookup pix a = some (img a) :=
  ⟨_, Memory.map_range_wf img 6144, fun a ha =>
    (Memory.lookup_map_range img 6144 a).trans (if_pos ha)⟩

/-- A PIX that holds the picture `imageByte` draws of `f` has `f` as its image (R80). -/
theorem isImageOf_imageByte {s : State} {f : Nat → Byte} (h : PixWritten (imageByte f) s) :
    IsImageOf s f := by
  intro p c j hp hc hj
  rw [pixByte_of_pixWritten h (by omega), dark_imageByte f hc hj]

/-- Settles O21: any bytes are the image of the picture `imageByte` draws of them, and the packed
bytes of `s` are the image of every PIX with the same dark pixels. -/
theorem everyFramebufferIsAnEncoding : Obligations.EveryFramebufferIsAnEncoding := by
  refine ⟨fun s f hd => ?_, fun s s' hd hd' h => ?_⟩
  · obtain ⟨pix, hwf, hpix⟩ := exists_pix_of_image (imageByte f)
    exact ⟨pix, hwf, hpix, exec_encode_fbByte hd (isImageOf_imageByte hpix)⟩
  · have hf := isImageOf_pack s
    obtain ⟨t', ht', hfb⟩ := exec_encode_congr hd' hf h
    exact ⟨_, t', exec_encode_of_isImageOf hd hf, ht', hfb.symm⟩

/-! #### FILL and CLEAR beside ENCODE -/

/-- A bracketed update whose display-off is answered ok leaves FB written (R85, R88, R90). -/
theorem bracketedUpdate_fb {s : State} (f : Nat → Byte) (h : s.answerAt 0 (.cmd 0xAE#8) = .ok) :
    ((Progress.running s 0#8).bracketedUpdate f).complete.fb = fullFramebuffer f := by
  rcases allOk_or_firstFault s (bracketedPlan f) with hok | ⟨n, tx, hfault⟩
  · rw [complete_bracketed_ok hok]; rfl
  · rw [complete_bracketed_fault hfault]
    have hn : n ≠ 0 := by
      rintro rfl
      obtain ⟨htx, hans, -⟩ := hfault
      obtain rfl : Transaction.cmd 0xAE#8 = tx := by simpa [bracketedPlan] using htx
      simp [h] at hans
    rw [if_neg hn]; rfl

/-- A page stream leaves FB as written, whatever the sink answers (R82, R96). -/
theorem pageStream_fb (s : State) (f : Nat → Byte) :
    ((Progress.running (s.setFb (fullFramebuffer f)) 0#8).pageStream).complete.fb =
      fullFramebuffer f := by
  rcases allOk_or_firstFault s (streamPlan f) with hok | ⟨n, tx, hfault⟩
  · rw [complete_stream_ok hok]; rfl
  · rw [complete_stream_fault hfault]; rfl

/-- CLEAR and FILL leave their byte everywhere, unless a bracketing display-off faults (R88,
R90). -/
theorem surfaceUpdate_fb (v : Byte) {s : State}
    (h : s.bracketClearFill = true → s.answerAt 0 (.cmd 0xAE#8) = .ok) :
    (Progress.surfaceUpdate v (.running s 0#8)).complete.fb = fullFramebuffer fun _ => v := by
  rw [surfaceUpdate_eq]
  split
  · next hb => exact bracketedUpdate_fb _ (h hb)
  · exact pageStream_fb s _

/-- Settles O29: each update leaves the uniform framebuffer that is the image of the uniform
picture. -/
theorem fillAndClearMatchUniformImages : Obligations.FillAndClearMatchUniformImages := by
  refine fun s hd hoff => ⟨fun h => ?_, fun h => ?_⟩
  · exact ⟨_, _, exec_encode_of_isImageOf hd (isImageOf_allDark h), rfl,
      surfaceUpdate_fb 0xFF#8 hoff⟩
  · exact ⟨_, _, exec_encode_of_isImageOf hd (isImageOf_allLight h), rfl,
      surfaceUpdate_fb 0x00#8 hoff⟩

end Sys2Proof.Proofs

/-! ### Family 42_display_update.md: the page stream, SHOW_IMAGE, CLEAR and FILL -/

namespace Sys2Proof.Proofs

open Sys2Proof.Machine Sys2Proof.Safety

/-! #### The transactions of a page stream by position -/

section StreamPositions

variable (fb : Nat → Byte) (p : Nat)

/-- Position 4p of a page stream: the select of page p (R56, R82). -/
theorem streamTx_select : streamTx fb (4 * p) = .cmd (BitVec.ofNat 8 (0xB0 + p)) := by
  simp [streamTx]

theorem streamTx_columnLow : streamTx fb (4 * p + 1) = .cmd 0x00#8 := by
  simp [streamTx]

theorem streamTx_columnHigh : streamTx fb (4 * p + 2) = .cmd 0x10#8 := by
  simp [streamTx]

theorem streamTx_page : streamTx fb (4 * p + 3) = .data (pageBytes fb p) := by
  have hdiv : (4 * p + 3) / 4 = p := by omega
  simp [streamTx, hdiv]

theorem streamPlan_getElem? {k : Nat} (hk : k < 24) :
    (streamPlan fb)[k]? = some (streamTx fb k) := by
  simp [streamPlan, hk]

/-- Display-off shifts the page stream by one position (R87). -/
theorem bracketedPlan_getElem? {k : Nat} (hk : k < 24) :
    (bracketedPlan fb)[k + 1]? = some (streamTx fb k) := by
  have hlen : k < (streamPlan fb).length := by simpa using hk
  rw [bracketedPlan, List.singleton_append, List.cons_append, List.getElem?_cons_succ,
    List.getElem?_append_left hlen, streamPlan_getElem? fb hk]

end StreamPositions

/-- The page-select byte as R56 writes it. -/
theorem pageSelect_or_eq_add {p : Nat} (hp : p < 6) :
    0xB0#8 ||| BitVec.ofNat 8 p = BitVec.ofNat 8 (0xB0 + p) := by
  have hor : 0xB0 ||| p = 0xB0 + p := or_nibble 11 (by omega)
  rw [← hor, BitVec.ofNat_or]

/-- A page's bytes depend on the framebuffer's 768 bytes alone. -/
theorem pageBytes_congr {f g : Nat → Byte} (h : ∀ i, i < 768 → f i = g i) {p : Nat} (hp : p < 6) :
    pageBytes f p = pageBytes g p :=
  List.map_congr_left fun c hc => h _ (by have := List.mem_range.1 hc; omega)

/-- Settles O22: no Emit changes FB, so the stream is its plan for FB as it stands at its start, and
the plan is read off by position. -/
theorem pageStreamPositions : Obligations.PageStreamPositions := by
  intro s k
  have hfb : (Progress.running s k).FbIs s.fbByte := by rintro _ _ ⟨⟩ _ _; rfl
  refine ⟨Progress.pageStream_eq_emitAll hfb, streamPlan_length _, fun p hp => ⟨?_, ?_, ?_, ?_⟩⟩
  · rw [streamPlan_getElem? _ (by omega), streamTx_select, pageSelect_or_eq_add hp]
  · rw [streamPlan_getElem? _ (by omega), streamTx_columnLow]
  · rw [streamPlan_getElem? _ (by omega), streamTx_columnHigh]
  · rw [streamPlan_getElem? _ (by omega), streamTx_page, pageBytes, Nat.mul_comm]

/-! #### SHOW_IMAGE -/

/-- SHOW_IMAGE when the dimensions match and a transaction faults: the whole next state (R86). -/
theorem execShowImage_firstFault {s : State} {fb : Nat → Byte} (hd : DimsOk s)
    (hf : IsImageOf s fb) {k : Nat} {tx : Transaction} (h : FirstFault s (bracketedPlan fb) k tx) :
    execShowImage s = .next (failed
      (sentThenFault (if k = 0 then s else withFb s (fullFramebuffer fb))
        ((bracketedPlan fb).take k) tx) 0x35#8 (BitVec.ofNat 8 k) 0x04#8) := by
  rw [execShowImage_match hd hf, complete_bracketed_fault h]
  rfl

/-- Settles O23: a mismatch is turned away; otherwise one bracketed page stream of the packed image,
all answered ok or stopped at its first fault. -/
theorem showImageResult : Obligations.ShowImageResult := by
  refine ⟨decode_ofBytes_noOperand (i := .showImage) (by simp), fun s hd => ?_,
    fun s fb hd hf => ⟨fullFramebuffer fb, fullFramebuffer_wf fb, fun i hi => ?_,
      execShowImage_allOk hd hf, fun k tx => execShowImage_firstFault hd hf⟩⟩
  · rw [← dimInfo_eq_flags]
    exact execShowImage_mismatch hd
  · rw [fullFramebuffer_lookup, if_pos hi]

/-- Settles O24: OUT gains the bracketed plan of the packed image, whose bytes FB then holds. -/
theorem showImageOutputTable : Obligations.ShowImageOutputTable := by
  intro s hd hok
  obtain ⟨fb, hf⟩ : ∃ fb, IsImageOf s fb := ⟨_, isImageOf_pack s⟩
  have hbytes (i : Nat) (hi : i < 768) :
      fb i = (succeeded (sent (s.setFb (fullFramebuffer fb)) (bracketedPlan fb))).fbByte i :=
    (State.fbByte_of_full rfl hi).symm
  refine ⟨_, bracketedPlan fb, execShowImage_allOk hd hf (hok fb hf), rfl, bracketedPlan_length fb,
    rfl, ?_, fun p hp => ⟨?_, ?_, ?_, ?_⟩⟩
  · simp [bracketedPlan]
  · rw [Nat.add_comm, bracketedPlan_getElem? _ (by omega), streamTx_select]
  · rw [Nat.add_comm, bracketedPlan_getElem? _ (k := 4 * p + 1) (by omega), streamTx_columnLow]
  · rw [Nat.add_comm, bracketedPlan_getElem? _ (k := 4 * p + 2) (by omega), streamTx_columnHigh]
  · rw [Nat.add_comm, bracketedPlan_getElem? _ (k := 4 * p + 3) (by omega), streamTx_page,
      pageBytes_congr hbytes hp]
    rfl

/-! #### CLEAR and FILL -/

theorem fullFramebuffer_const (v : Byte) : (fullFramebuffer fun _ => v) = uniformFramebuffer v := by
  unfold fullFramebuffer uniformFramebuffer
  rfl

/-- CLEAR and FILL when no transaction faults: the whole next state, bracketed or not (R85, R88,
R90). -/
theorem surfaceUpdate_allOk (v : Byte) {s : State}
    (h : AllOk s (updatePlan s.bracketClearFill fun _ => v)) :
    (Progress.surfaceUpdate v (.running s 0#8)).complete =
      succeeded (sent (withFb s (uniformFramebuffer v))
        (updatePlan s.bracketClearFill fun _ => v)) := by
  rw [surfaceUpdate_eq, ← fullFramebuffer_const]
  cases hb : s.bracketClearFill with
  | true => rw [hb] at h; exact complete_bracketed_ok h
  | false => rw [hb] at h; exact complete_stream_ok h

/-- CLEAR and FILL when a transaction faults: FB is written unless that was a bracketing display-off
(R88, R90, R102). -/
theorem surfaceUpdate_firstFault (v : Byte) {s : State} {k : Nat} {tx : Transaction}
    (h : FirstFault s (updatePlan s.bracketClearFill fun _ => v) k tx) :
    (Progress.surfaceUpdate v (.running s 0#8)).complete =
      failed (sentThenFault
        (if k = 0 ∧ s.bracketClearFill = true then s else withFb s (uniformFramebuffer v))
        ((updatePlan s.bracketClearFill fun _ => v).take k) tx)
        0x35#8 (BitVec.ofNat 8 k) 0x04#8 := by
  rw [surfaceUpdate_eq, ← fullFramebuffer_const]
  cases hb : s.bracketClearFill with
  | true =>
    rw [hb] at h
    simp only [and_true]
    exact complete_bracketed_fault h
  | false =>
    rw [hb] at h
    simp only [Bool.false_eq_true, and_false, if_false]
    exact complete_stream_fault h

/-- Settles O25: CLEAR is the surface update with the byte 0x00. -/
theorem clearResult : Obligations.ClearResult :=
  ⟨decode_ofBytes_noOperand (i := .clear) (by simp), fun _ =>
    ⟨fun h => congrArg _ (surfaceUpdate_allOk 0x00#8 h),
      fun _ _ h => congrArg _ (surfaceUpdate_firstFault 0x00#8 h)⟩⟩

/-- Settles O26: FILL is the surface update with the byte 0xFF. -/
theorem fillResult : Obligations.FillResult :=
  ⟨decode_ofBytes_noOperand (i := .fill) (by simp), fun _ =>
    ⟨fun h => congrArg _ (surfaceUpdate_allOk 0xFF#8 h),
      fun _ _ h => congrArg _ (surfaceUpdate_firstFault 0xFF#8 h)⟩⟩

/-! #### CLEAR then FILL -/

/-- Once a plan is sent, the sink's next answer is the one after the plan's. -/
theorem answerAt_sent (s : State) (txs : List Transaction) (j : Nat) (tx : Transaction) :
    (sent s txs).answerAt j tx = s.answerAt (txs.length + j) tx := by
  simp [State.answerAt, sent, Nat.add_assoc]

/-- Two plans in a row are all answered ok when the first is, and then the second. -/
theorem allOk_append {s : State} {xs ys : List Transaction} (h : AllOk s (xs ++ ys)) :
    AllOk s xs ∧ AllOk (sent s xs) ys := by
  refine ⟨fun j tx hj => h j tx ?_, fun j tx hj => ?_⟩
  · obtain ⟨hlt, -⟩ := List.getElem?_eq_some_iff.1 hj
    rwa [List.getElem?_append_left hlt]
  · rw [answerAt_sent]
    exact h _ tx (by simpa [List.getElem?_append_right] using hj)

theorem isPageSelect_select {p : Nat} (hp : p < 6) :
    isPageSelect (.cmd (BitVec.ofNat 8 (0xB0 + p))) = true := by
  have hn : (BitVec.ofNat 8 (0xB0 + p)).toNat = 0xB0 + p := Nat.mod_eq_of_lt (by omega)
  rw [isPageSelect, hn, decide_eq_true_iff]
  omega

theorem pagePlan_pageSelects (fb : Nat → Byte) {p : Nat} (hp : p < 6) :
    ((pagePlan fb p).filter isPageSelect).length = 1 := by
  rw [pagePlan, List.filter_cons_of_pos (isPageSelect_select hp)]
  rfl

/-- A page stream has one page select a page (R82). -/
theorem streamPlan_pageSelects (fb : Nat → Byte) :
    ((streamPlan fb).filter isPageSelect).length = 6 := by
  simp [streamPlan_eq, pagePlan_pageSelects]

/-- The payload of a uniform framebuffer's page stream (R89, R91). -/
theorem payload_streamPlan_const (v : Byte) :
    (streamPlan fun _ => v).flatMap payload = List.replicate 768 v := by
  rw [payload_streamPlan, List.map_const', List.length_range]

theorem streamPlan_drop_take (fb : Nat → Byte) {p : Nat} (hp : p < 6) :
    ((streamPlan fb).drop (4 * p)).take 4 = pagePlan fb p := by
  rw [streamPlan_eq]
  interval_cases p <;> rfl

theorem pageBytes_const (v : Byte) (p : Nat) : pageBytes (fun _ => v) p = List.replicate 128 v := by
  rw [pageBytes, List.map_const', List.length_range]

/-- The pseudocode CLEAR and FILL share, without a bracket and with every answer ok: OUT gains the
page stream, and the sink has moved on by it (R88, R90). -/
theorem surfaceUpdate_unbracketed (v : Byte) {s : State} (hb : s.bracketClearFill = false)
    (h : AllOk s (streamPlan fun _ => v)) :
    ∃ t, (Progress.surfaceUpdate v (.running s 0#8)).complete = t ∧
      t.out = s.out ++ (streamPlan fun _ => v).map (fun tx => (tx, .ok)) ∧
      t.bracketClearFill = false ∧
      ∀ j tx, t.answerAt j tx = (sent s (streamPlan fun _ => v)).answerAt j tx := by
  have hrun := surfaceUpdate_allOk v (s := s)
  rw [hb] at hrun
  exact ⟨_, hrun h, rfl, hb, fun _ _ => rfl⟩

/-- Settles O27: OUT gains the page stream of 0x00 bytes and then that of 0xFF bytes. -/
theorem clearThenFillOutput : Obligations.ClearThenFillOutput := by
  intro s hb hok
  obtain ⟨hclear, hfill⟩ := allOk_append hok
  obtain ⟨t, ht, htout, htb, hans⟩ := surfaceUpdate_unbracketed 0x00#8 hb hclear
  obtain ⟨u, hu, huout, -, -⟩ := surfaceUpdate_unbracketed 0xFF#8 htb
    fun j tx hj => (hans j tx).trans (hfill j tx hj)
  have htake : (streamPlan (fun _ => 0x00#8) ++ streamPlan (fun _ => 0xFF#8)).take 24 =
      streamPlan (fun _ => 0x00#8) := List.take_left' (streamPlan_length _)
  have hdrop : (streamPlan (fun _ => 0x00#8) ++ streamPlan (fun _ => 0xFF#8)).drop 24 =
      streamPlan (fun _ => 0xFF#8) := List.drop_left' (streamPlan_length _)
  refine ⟨t, u, streamPlan (fun _ => 0x00#8) ++ streamPlan (fun _ => 0xFF#8),
    congrArg Host.Outcome.next ht, congrArg Host.Outcome.next hu, ?_, ?_, by simp, ?_, ?_, ?_,
    fun p hp => ?_⟩
  · rw [huout, htout, List.map_append, List.append_assoc]
  · rw [htout, htake]
  · rw [htake, streamPlan_pageSelects]
  · rw [hdrop, streamPlan_pageSelects]
  · rw [List.flatMap_append, payload_streamPlan_const, payload_streamPlan_const]
  · have hp4 : 4 * p ≤ (streamPlan fun _ => 0x00#8).length := by rw [streamPlan_length]; omega
    have hlen : 4 ≤ ((streamPlan fun _ => 0x00#8).drop (4 * p)).length := by
      rw [List.length_drop, streamPlan_length]; omega
    rw [List.drop_append_of_le_length hp4, List.take_append_of_le_length hlen,
      streamPlan_drop_take _ hp, pagePlan, pageBytes_const]

/-! #### An earlier addressing operation -/

/-- Run in `t`, the operation adds `new` to OUT and leaves the framebuffer `m`. -/
def Leaves (op : Instr) (t : State) (new : List (Transaction × SinkAnswer)) (m : Memory) : Prop :=
  ∃ v, exec op t = .next v ∧ v.out = t.out ++ new ∧ v.fb = m

theorem SameButOutAndErrors.keeps {s t : State} (h : SameButOutAndErrors s t) :
    OperationKeeps s t := by
  constructor <;> rw [h]

theorem SameButOutAndErrors.fb {s t : State} (h : SameButOutAndErrors s t) : t.fb = s.fb := by
  rw [h]

theorem OperationKeeps.dimsOk_iff {s t : State} (h : OperationKeeps s t) : DimsOk t ↔ DimsOk s := by
  rw [DimsOk, h.imgW, h.imgH, DimsOk]

theorem OperationKeeps.isImageOf {s t : State} (h : OperationKeeps s t) {fb : Nat → Byte}
    (hf : IsImageOf s fb) : IsImageOf t fb :=
  isImageOf_congr hf fun a _ => by rw [State.pixByte_congr h.pix h.resetCount]

/-- SHOW_IMAGE with every answer ok, from any state alike in what it reads (R84, R86). -/
theorem showImage_leaves_same (s : State) : ∃ new m, ∀ t, SameButOutAndErrors s t →
    (∀ j tx, j < 26 → t.answerAt j tx = .ok) → Leaves .showImage t new m := by
  by_cases hd : DimsOk s
  · obtain ⟨fb, hf⟩ : ∃ fb, IsImageOf s fb := ⟨_, isImageOf_pack s⟩
    exact ⟨_, _, fun t hst hans => ⟨_, execShowImage_allOk (hst.keeps.dimsOk_iff.2 hd)
      (hst.keeps.isImageOf hf) (allOk_of_answers hans (bracketedPlan_length fb).le), rfl, rfl⟩⟩
  · exact ⟨[], s.fb, fun t hst _ => ⟨_, execShowImage_mismatch (mt hst.keeps.dimsOk_iff.1 hd),
      (List.append_nil _).symm, hst.fb⟩⟩

/-- CLEAR and FILL with every answer ok, from any state alike in what they read (R84, R88, R90). -/
theorem surfaceUpdate_leaves_same {op : Instr} {v : Byte}
    (hop : ∀ t, exec op t = .next (Progress.surfaceUpdate v (.running t 0#8)).complete)
    (s : State) : ∃ new m, ∀ t, SameButOutAndErrors s t →
      (∀ j tx, j < 26 → t.answerAt j tx = .ok) → Leaves op t new m := by
  refine ⟨(updatePlan s.bracketClearFill fun _ => v).map fun tx => (tx, .ok), uniformFramebuffer v,
    fun t hst hans => ⟨_, hop t, ?_⟩⟩
  have hlen : (updatePlan t.bracketClearFill fun _ => v).length ≤ 26 := by
    cases t.bracketClearFill <;> simp [updatePlan]
  rw [surfaceUpdate_allOk v (allOk_of_answers hans hlen), hst.keeps.bracketClearFill]
  exact ⟨rfl, rfl⟩

/-- With every answer ok, what an update sends and leaves in FB is the same in all states that
differ in OUT, the error registers and the sink's progress alone (R82, R84). -/
theorem update_leaves_same {op : Instr} (hop : op = .showImage ∨ op = .clear ∨ op = .fill)
    (s : State) : ∃ new m, ∀ t, SameButOutAndErrors s t →
      (∀ j tx, j < 26 → t.answerAt j tx = .ok) → Leaves op t new m := by
  rcases hop with rfl | rfl | rfl
  · exact showImage_leaves_same s
  · exact surfaceUpdate_leaves_same (v := 0x00#8) (fun _ => rfl) s
  · exact surfaceUpdate_leaves_same (v := 0xFF#8) (fun _ => rfl) s

/-- With its answers ok, an addressing operation is turned away or sends at most two transactions
(R66, R68). -/
theorem exec_addressing_answered {i : Instr} {arg : Byte} {s : State}
    (h : i = .selectPage arg ∨ i = .selectColumn arg)
    (hans : ∀ j tx, j < 2 → s.answerAt j tx = .ok) :
    (∃ status info flag, exec i s = .next (failed s status info flag)) ∨
      ∃ plan, plan.length ≤ 2 ∧ exec i s = .next (succeeded (sent s plan)) := by
  have hsent (plan : List Transaction) (hlen : plan.length ≤ 2) :
      ((Progress.running s 0#8).emitAll plan).complete = succeeded (sent s plan) :=
    complete_emitAll_ok (allOk_of_answers hans hlen)
  rcases h with rfl | rfl
  · rcases Nat.lt_or_ge 5 arg.toNat with hr | hr
    · exact .inl ⟨_, _, _, execSelectPage_outOfRange s hr⟩
    · exact .inr ⟨_, by simp, (execSelectPage_legal s hr).trans (congrArg _ (hsent _ (by simp)))⟩
  · rcases Nat.lt_or_ge 127 arg.toNat with hr | hr
    · exact .inl ⟨_, _, _, execSelectColumn_outOfRange s hr⟩
    · exact .inr ⟨_, by simp, (execSelectColumn_legal s hr).trans (congrArg _ (hsent _ (by simp)))⟩

/-- An addressing operation takes at most two of the sink's answers and leaves what an update
reads. -/
theorem exec_addressing_leaves_answers {i : Instr} {arg : Byte} {s : State}
    (h : i = .selectPage arg ∨ i = .selectColumn arg)
    (hans : ∀ j tx, j < 28 → s.answerAt j tx = .ok) :
    ∃ t, exec i s = .next t ∧ SameButOutAndErrors s t ∧
      ∀ j tx, j < 26 → t.answerAt j tx = .ok := by
  rcases exec_addressing_answered h fun j tx hj => hans j tx (by omega) with
    ⟨status, info, flag, hexec⟩ | ⟨plan, hlen, hexec⟩
  · exact ⟨_, hexec, rfl, fun j tx hj => hans j tx (by omega)⟩
  · exact ⟨_, hexec, rfl, fun j tx hj => (answerAt_sent s plan j tx).trans (hans _ tx (by omega))⟩

/-- Settles O28: the addressing operation leaves what the update reads and enough ok answers. -/
theorem updatesIgnoreEarlierAddressing : Obligations.UpdatesIgnoreEarlierAddressing := by
  intro s i op arg hi hop hans
  obtain ⟨t, ht, hsame, htans⟩ := exec_addressing_leaves_answers hi hans
  obtain ⟨new, m, hleaves⟩ := update_leaves_same hop s
  obtain ⟨u, hu, huout, hufb⟩ := hleaves s rfl fun j tx hj => hans j tx (by omega)
  obtain ⟨v, hv, hvout, hvfb⟩ := hleaves t hsame htans
  exact ⟨t, u, v, new, ht, hu, hv, huout, hvout, hufb.trans hvfb.symm⟩

end Sys2Proof.Proofs

/-! ### Family 60_exceptions.md: the error an operation records, and what it leaves as it was -/

namespace Sys2Proof.Proofs

open Sys2Proof.Machine Sys2Proof.Safety

/-! #### Recording an error -/

/-- Settles O31: recording writes the three error registers by definition; the bytes are those of R94's
table. -/
theorem recordedErrorBytes : Obligations.RecordedErrorBytes := by
  refine ⟨fun s kind cause info => rfl, ?_⟩
  decide

/-! #### Reserved words -/

/-- The operations are numbered 1 to 6 (R50). -/
theorem opcode_range (i : Instr) : 1 ≤ i.opcode.toNat ∧ i.opcode.toNat ≤ 6 := by
  cases i <;> simp [Instr.opcode]

/-- Any other OPC is reserved, whatever ARG holds (R51). -/
theorem decode_reserved {w : OpWord} (h : w.opc.toNat = 0 ∨ 7 ≤ w.opc.toNat) :
    decode w = .error (.reservedOpcode w.opc) := by
  cases hdec : decode w with
  | ok i =>
    have hrange := opcode_range i
    rw [← opc_of_decode hdec] at hrange
    omega
  | error e => rw [(decode_error hdec).1]

/-- Settles O9: such a word decodes to no operation, and issuing it records RESERVED_OP. -/
theorem reservedWordRecordsConfigurationError :
    Obligations.ReservedWordRecordsConfigurationError := by
  intro s opc hopc
  have hword : (OpWord.ofBytes s.opArg opc).opc = opc := Laws.OpWord.opc_ofBytes s.opArg opc
  have hdec : decode (OpWord.ofBytes s.opArg opc) = .error (.reservedOpcode opc) := by
    rw [decode_reserved (by rwa [hword]), hword]
  exact ⟨hdec, (perform_opIssue opc s).trans (issue_of_decode_error hdec)⟩

/-! #### At most one error -/

/-- An operation past its checks sends its transactions and succeeds; or, if it sends at all, it stops
at the first transaction answered fault, and ERR_INFO counts those before it (R97, R102). -/
theorem succeeded_or_faulted_of_ran {w e : Bool} {s t : State} (h : Ran w e s t) :
    ∃ (m : Memory) (txs : List Transaction),
      t = succeeded (sent (withFb s m) txs) ∨
      e = true ∧ txs.length ≤ 25 ∧ ∃ tx, t = failed (sentThenFault (withFb s m) txs tx) 0x35#8
        (BitVec.ofNat 8 txs.length) 0x04#8 := by
  obtain ⟨m, plan, hlen, -, -, hsends, hend⟩ := h
  rcases hend with ht | ⟨k, tx, hk, ht⟩
  · exact ⟨m, plan, .inl ht⟩
  · obtain ⟨hlt, -⟩ := List.getElem?_eq_some_iff.1 hk
    have hkl : (plan.take k).length = k := List.length_take_of_le hlt.le
    have he : e = true := hsends.resolve_left (List.ne_nil_of_length_pos (by omega))
    exact ⟨m, plan.take k, .inr ⟨he, by omega, tx, by rwa [hkl]⟩⟩

/-- Settles O32: turned away by its own check, with that check's error, or past its checks; ENCODE
sends nothing, so no transaction of it is answered fault. -/
theorem operationReportsAtMostOneError : Obligations.OperationReportsAtMostOneError := by
  intro i s
  obtain ⟨t, ht, hcases⟩ := exec_cases i s
  refine ⟨t, ht, ?_⟩
  rcases hcases with hpage | hcolumn | ⟨hi, hdims, ht⟩ | hran
  · exact .inr (.inl hpage)
  · exact .inr (.inr (.inl hcolumn))
  · obtain ⟨hlow, hhigh⟩ := dimInfo_range s hdims
    exact .inr (.inr (.inr (.inl ⟨hi, hdims, _, hlow, hhigh, ht⟩)))
  · obtain ⟨m, txs, rfl | ⟨hsends, hlen, tx, rfl⟩⟩ := succeeded_or_faulted_of_ran hran
    · exact .inl ⟨rfl, rfl, rfl, txs, rfl⟩
    · have hne : i ≠ .encode := by rintro rfl; cases hsends
      exact .inr (.inr (.inr (.inr ⟨hne, rfl, rfl, txs, tx, hlen, rfl, rfl⟩)))

/-! #### Errors raised before anything else happens -/

/-- KIND is 0 after success and 3 after a transport fault, so an operation that ends with KIND 1 or 2
was turned away, and changed the error registers alone (R95). -/
theorem Ending.frame_of_early_kind {s t : State} (h : Ending s t)
    (hkind : kindField t.errStatus = 1#2 ∨ kindField t.errStatus = 2#2) :
    t = { s with errStatus := t.errStatus, errInfo := t.errInfo, sticky := t.sticky } := by
  cases h with
  | turnedAway _ => rfl
  | ranToEnd _ _ => exact absurd hkind (by simp only [succeeded]; decide)
  | faulted _ _ _ _ => exact absurd hkind (by simp only [failed]; decide)

/-- Settles O33: every issue ends, and an ending with one of these kinds turned the word away. -/
theorem earlyErrorsLeaveFbAndOut : Obligations.EarlyErrorsLeaveFbAndOut := by
  intro s opc
  obtain ⟨t, ht, -⟩ := issue_cases opc s
  exact ⟨t, (perform_opIssue opc s).trans ht, (issue_ending ht).frame_of_early_kind⟩

end Sys2Proof.Proofs

/-! ### Family 70_reset_and_hazards.md: Reset, a stopped host and a run that records no error -/

namespace Sys2Proof.Proofs

open Sys2Proof.Machine Sys2Proof.Safety

/-! #### Reset and a stopped host -/

/-- Settles O2: the state after a Reset is a launch state, and its empty stores read as the draws of
the next reset. -/
theorem hostResetReentersLaunchState : Obligations.HostResetReentersLaunchState := fun s =>
  ⟨s.blockReset, rfl, cleanLaunch_blockReset s, fun _ => rfl, fun _ => rfl, rfl, rfl, rfl, rfl, rfl,
    rfl⟩

/-- Settles O4: a step looks at the host's list first, and an empty list asks for nothing. -/
theorem stoppedHostLeavesLastState : Obligations.StoppedHostLeavesLastState := by
  intro s hacts
  simp only [step, performNext, hacts]

/-! #### Runs that record no error -/

/-- An operation leaves STICKY clear exactly when it was clear and the operation succeeded: an error
sets its KIND's flag (R24, R96), and success leaves STICKY as it was (R97). -/
theorem Ending.noErrorRecorded_iff {s t : State} (h : Ending s t) :
    NoErrorRecorded t ↔ NoErrorRecorded s ∧ t.errStatus = 0x00#8 := by
  by_cases hst : t.errStatus = 0x00#8
  · have hsticky : t.sticky = s.sticky := by rw [h.sticky, if_pos hst]
    simp [NoErrorRecorded, hsticky, hst]
  · have hset : ¬ NoErrorRecorded t := fun hclear => by
      have hflag := h.sticky_covers hst
      rw [hclear, BitVec.getLsbD_zero] at hflag
      cases hflag
    simp [hset, hst]

/-- Among the host actions other than Reset, only an issue that ends with an error ends a record
without errors. -/
theorem perform_noErrorRecorded_iff {a : HostAction} {s t : State} (h : perform a s = .next t)
    (hne : a ≠ .reset) :
    NoErrorRecorded t ↔ NoErrorRecorded s ∧ ¬ (isIssue a = true ∧ t.errStatus ≠ 0x00#8) := by
  rcases perform_kinds h with ⟨hi, -, he⟩ | ⟨hr, -⟩ | hacc
  · simp [he.noErrorRecorded_iff, hi]
  · exact absurd hr hne
  · simp [NoErrorRecorded, hacc.sticky, hacc.notIssue]

/-- A run without a Reset leaves STICKY clear exactly when it was clear at its start and no operation
failed. A refused action ends the run with the state before it (R35). -/
theorem runActions_noErrorRecorded_iff {actions : List HostAction} (hreset : .reset ∉ actions)
    (s : State) :
    NoErrorRecorded (runActions actions s).1 ↔
      NoErrorRecorded s ∧ ¬ someOperationFails actions s := by
  induction actions generalizing s with
  | nil => simp [runActions, someOperationFails]
  | cons a rest ih =>
    obtain ⟨hne, hrest⟩ := not_or.1 (mt List.mem_cons.2 hreset)
    rcases perform_answers a s with ⟨-, r, hp⟩ | ⟨-, t, hp⟩
    · simp [runActions, someOperationFails, hp]
    · rw [runActions_cons hp, ih hrest t, perform_noErrorRecorded_iff hp (Ne.symm hne)]
      simp only [someOperationFails, hp, not_or, and_assoc]

/-- Settles O36: a run from a state with STICKY clear. -/
theorem noErrorRecordedExactlyWhenNoneFailed :
    Obligations.NoErrorRecordedExactlyWhenNoneFailed := fun _ s hreset hclear =>
  (runActions_noErrorRecorded_iff hreset s).trans (and_iff_right hclear)

end Sys2Proof.Proofs
